-- ==== Sys2Proof/Word.lean ====
section
/-! DEFINITION. The word types of the core. Every value is an unsigned bit vector of its stated width
(spec/00_scope.md R8, R9): a register byte, a 16-bit register or instruction word, the 4-bit and 12-bit fields of
an encoding. Addresses under computation are mathematical integers, so plain `Nat` (spec/20_memory.md R53). -/

namespace Sys2Proof

/-- A general register, a memory byte, a timer, an immediate (spec/10_state.md R20). -/
abbrev Byte := BitVec 8

/-- I, pc, a stack entry, an instruction word (spec/10_state.md R20, spec/30_encoding.md R70). -/
abbrev Word := BitVec 16

/-- A register number or the sprite height (spec/30_encoding.md R71). -/
abbrev Nibble := BitVec 4

/-- The address field nnn (spec/30_encoding.md R71). -/
abbrev Addr := BitVec 12

/-- The parameter FONT: 80 bytes, glyph d at bytes 5d to 5d+4 (spec/00_scope.md R6, spec/20_memory.md R52). -/
abbrev Font := Vector Byte 80

/-- The framebuffer grid: 32 rows of 64 one-bit pixels (spec/10_state.md R33). -/
abbrev Frame := Vector (BitVec 64) 32

/-- `zext_16` of a byte (spec/00_scope.md R9). -/
def zextByte (b : Byte) : Word := b.setWidth 16

/-- `zext_16` of an address field (spec/00_scope.md R9, spec/30_encoding.md R72). -/
def zextAddr (a : Addr) : Word := a.setWidth 16

end Sys2Proof
end

