-- ==== Sys2Proof/Syntax.lean ====
section
/-! DEFINITION. The instruction set as syntax: one constructor of `Instr` for each of the 34 rows of
spec/30_encoding.md R73 (spec/opcode_table.json), the six encoding formats, the rows of the opcode table, and the
assembly lines of R78. The operand types have exactly the widths of the encoding fields (R71), so every term of `Instr`
is an encodable instruction; the ranges a source line must keep are checked in WellFormed.lean. -/

namespace Sys2Proof

/-- The 34 instructions, in the order of R73. The unrecognized word (ILLEGAL, R75) is no instruction: the decoder
rejects it and the cycle gives it its effect. -/
inductive Instr where
  /-- 00E0 CLS (R100) -/
  | cls
  /-- 00EE RET (R120) -/
  | ret
  /-- 1nnn JP addr (R121) -/
  | jpAddr (nnn : Addr)
  /-- 2nnn CALL addr (R122) -/
  | callAddr (nnn : Addr)
  /-- 3xnn SE Vx, byte (R123) -/
  | seByte (x : Nibble) (nn : Byte)
  /-- 4xnn SNE Vx, byte (R124) -/
  | sneByte (x : Nibble) (nn : Byte)
  /-- 5xy0 SE Vx, Vy (R125) -/
  | seReg (x y : Nibble)
  /-- 6xnn LD Vx, byte (R150) -/
  | ldByte (x : Nibble) (nn : Byte)
  /-- 7xnn ADD Vx, byte (R151) -/
  | addByte (x : Nibble) (nn : Byte)
  /-- 8xy0 LD Vx, Vy (R152) -/
  | ldReg (x y : Nibble)
  /-- 8xy1 OR Vx, Vy (R153) -/
  | orReg (x y : Nibble)
  /-- 8xy2 AND Vx, Vy (R154) -/
  | andReg (x y : Nibble)
  /-- 8xy3 XOR Vx, Vy (R155) -/
  | xorReg (x y : Nibble)
  /-- 8xy4 ADD Vx, Vy (R156) -/
  | addReg (x y : Nibble)
  /-- 8xy5 SUB Vx, Vy (R157) -/
  | subReg (x y : Nibble)
  /-- 8xy6 SHR Vx, Vy (R158); y is encoded and ignored -/
  | shrReg (x y : Nibble)
  /-- 8xy7 SUBN Vx, Vy (R159) -/
  | subnReg (x y : Nibble)
  /-- 8xyE SHL Vx, Vy (R160); y is encoded and ignored -/
  | shlReg (x y : Nibble)
  /-- 9xy0 SNE Vx, Vy (R126) -/
  | sneReg (x y : Nibble)
  /-- Annn LD I, addr (R180) -/
  | ldI (nnn : Addr)
  /-- Bnnn JP V0, addr (R127) -/
  | jpV0 (nnn : Addr)
  /-- Cxnn RND Vx, byte (R161) -/
  | rnd (x : Nibble) (nn : Byte)
  /-- Dxyn DRW Vx, Vy, nibble (R101) -/
  | drw (x y n : Nibble)
  /-- Ex9E SKP Vx (R200) -/
  | skp (x : Nibble)
  /-- ExA1 SKNP Vx (R201) -/
  | sknp (x : Nibble)
  /-- Fx07 LD Vx, DT (R202) -/
  | ldVxDt (x : Nibble)
  /-- Fx0A LD Vx, K (R203) -/
  | ldVxK (x : Nibble)
  /-- Fx15 LD DT, Vx (R205) -/
  | ldDtVx (x : Nibble)
  /-- Fx18 LD ST, Vx (R206) -/
  | ldStVx (x : Nibble)
  /-- Fx1E ADD I, Vx (R181) -/
  | addI (x : Nibble)
  /-- Fx29 LD F, Vx (R182) -/
  | ldF (x : Nibble)
  /-- Fx33 LD B, Vx (R183) -/
  | ldB (x : Nibble)
  /-- Fx55 LD [I], Vx (R186) -/
  | storeRegs (x : Nibble)
  /-- Fx65 LD Vx, [I] (R187) -/
  | loadRegs (x : Nibble)
  deriving DecidableEq, Repr

/-- The six encoding formats of R73. -/
inductive Format where
  | W | A | XB | XYF | XYN | XF
  deriving DecidableEq, Repr

/-- One row of the instruction list of R73: its number, mask, match and format. -/
structure Row where
  number : Nat
  mask   : Word
  value  : Word
  format : Format
  deriving DecidableEq, Repr

/-- The row of R73 (its `#` column) that an instruction belongs to. -/
def Instr.rowNumber : Instr → Nat
  | .cls => 1
  | .ret => 2
  | .jpAddr _ => 3
  | .callAddr _ => 4
  | .seByte _ _ => 5
  | .sneByte _ _ => 6
  | .seReg _ _ => 7
  | .ldByte _ _ => 8
  | .addByte _ _ => 9
  | .ldReg _ _ => 10
  | .orReg _ _ => 11
  | .andReg _ _ => 12
  | .xorReg _ _ => 13
  | .addReg _ _ => 14
  | .subReg _ _ => 15
  | .shrReg _ _ => 16
  | .subnReg _ _ => 17
  | .shlReg _ _ => 18
  | .sneReg _ _ => 19
  | .ldI _ => 20
  | .jpV0 _ => 21
  | .rnd _ _ => 22
  | .drw _ _ _ => 23
  | .skp _ => 24
  | .sknp _ => 25
  | .ldVxDt _ => 26
  | .ldVxK _ => 27
  | .ldDtVx _ => 28
  | .ldStVx _ => 29
  | .addI _ => 30
  | .ldF _ => 31
  | .ldB _ => 32
  | .storeRegs _ => 33
  | .loadRegs _ => 34

/-! ### Assembly lines (R78) -/

/-- The conventional mnemonics of R78 (spec/93_implementation_defined.md K2). -/
inductive Mnemonic where
  | cls | ret | jp | call | se | sne | ld | add | or | and | xor | sub | shr | subn | shl | rnd | drw | skp | sknp
  deriving DecidableEq, Repr

/-- An operand as a source line writes it. A number carries no width of its own: whether it is a byte, a nibble or an
address follows from the line it stands in. -/
inductive Operand where
  /-- `V0` to `VF` -/
  | v (r : Nat)
  /-- a number, hex or decimal -/
  | num (n : Nat)
  /-- `I` -/
  | i
  /-- `DT` -/
  | dt
  /-- `ST` -/
  | st
  /-- `K` -/
  | k
  /-- `F` -/
  | f
  /-- `B` -/
  | b
  /-- `[I]` -/
  | memI
  deriving DecidableEq, Repr

/-- What a source line assembles: an instruction by mnemonic and operands, or `DW`, one raw word. -/
inductive Stmt where
  | ins (m : Mnemonic) (ops : List Operand)
  | dw (n : Nat)
  deriving DecidableEq, Repr

/-- A source line, `[label:] mnemonic operands`. -/
structure Line where
  label : Option (List Char)
  stmt  : Stmt
  deriving DecidableEq, Repr

end Sys2Proof
end

