-- ==== Sys2Proof/Decode.lean ====
section
/-! DEFINITION. Decode and encode. Every instruction is one 16-bit word, fetched big-endian (spec/30_encoding.md R70). The
decoder is exact: every fixed nibble is checked (R74), and every other word is rejected by the group of R75 it falls in.
The encoder writes the words of R73, and the opcode table of R73 stands beside them as data. -/

namespace Sys2Proof

/-! ### Fields (R71) -/

/-- g = opcode[15:12], the group. -/
def fieldG (w : Word) : Nibble := w.extractLsb' 12 4

/-- x = opcode[11:8], a register number. -/
def fieldX (w : Word) : Nibble := w.extractLsb' 8 4

/-- y = opcode[7:4], a register number. -/
def fieldY (w : Word) : Nibble := w.extractLsb' 4 4

/-- n = opcode[3:0], the sprite height or a function selector. -/
def fieldN (w : Word) : Nibble := w.extractLsb' 0 4

/-- nn = opcode[7:0], the immediate byte or a function selector. -/
def fieldNN (w : Word) : Byte := w.extractLsb' 0 8

/-- nnn = opcode[11:0], the address. -/
def fieldNNN (w : Word) : Addr := w.extractLsb' 0 12

/-! ### Decoding (R74, R75) -/

/-- Why bytes are no instruction: fewer than two of them, or an unrecognized word, by the row of R75 it falls in. -/
inductive Reject where
  /-- fewer than the two bytes of a word (R70) -/
  | truncated
  /-- 0x0000 to 0x0FFF except 00E0 and 00EE -/
  | group0
  /-- 5xyn with n not 0 -/
  | group5
  /-- 8xyn with n in 8, 9, A, B, C, D, F -/
  | group8
  /-- 9xyn with n not 0 -/
  | group9
  /-- Exnn with nn not 9E or A1 -/
  | groupE
  /-- Fxnn with nn none of 07, 0A, 15, 18, 1E, 29, 33, 55, 65 -/
  | groupF
  deriving DecidableEq, Repr

/-- Group 0: both instructions match all 16 bits (R74). -/
def decode0 (w : Word) : Except Reject Instr :=
  if w = 0x00E0#16 then .ok .cls
  else if w = 0x00EE#16 then .ok .ret
  else .error .group0

/-- Group 8, by n (R74). -/
def decode8 (x y n : Nibble) : Except Reject Instr :=
  match n with
  | 0x0#4 => .ok (.ldReg x y)
  | 0x1#4 => .ok (.orReg x y)
  | 0x2#4 => .ok (.andReg x y)
  | 0x3#4 => .ok (.xorReg x y)
  | 0x4#4 => .ok (.addReg x y)
  | 0x5#4 => .ok (.subReg x y)
  | 0x6#4 => .ok (.shrReg x y)
  | 0x7#4 => .ok (.subnReg x y)
  | 0xE#4 => .ok (.shlReg x y)
  | _ => .error .group8

/-- Group E, by nn (R74). -/
def decodeE (x : Nibble) (nn : Byte) : Except Reject Instr :=
  match nn with
  | 0x9E#8 => .ok (.skp x)
  | 0xA1#8 => .ok (.sknp x)
  | _ => .error .groupE

/-- Group F, by nn (R74). -/
def decodeF (x : Nibble) (nn : Byte) : Except Reject Instr :=
  match nn with
  | 0x07#8 => .ok (.ldVxDt x)
  | 0x0A#8 => .ok (.ldVxK x)
  | 0x15#8 => .ok (.ldDtVx x)
  | 0x18#8 => .ok (.ldStVx x)
  | 0x1E#8 => .ok (.addI x)
  | 0x29#8 => .ok (.ldF x)
  | 0x33#8 => .ok (.ldB x)
  | 0x55#8 => .ok (.storeRegs x)
  | 0x65#8 => .ok (.loadRegs x)
  | _ => .error .groupF

/-- The instruction a 16-bit word encodes, or the reason it encodes none (R73, R74, R75). -/
def decodeWord (w : Word) : Except Reject Instr :=
  match fieldG w with
  | 0x0#4 => decode0 w
  | 0x1#4 => .ok (.jpAddr (fieldNNN w))
  | 0x2#4 => .ok (.callAddr (fieldNNN w))
  | 0x3#4 => .ok (.seByte (fieldX w) (fieldNN w))
  | 0x4#4 => .ok (.sneByte (fieldX w) (fieldNN w))
  | 0x5#4 => if fieldN w = 0 then .ok (.seReg (fieldX w) (fieldY w)) else .error .group5
  | 0x6#4 => .ok (.ldByte (fieldX w) (fieldNN w))
  | 0x7#4 => .ok (.addByte (fieldX w) (fieldNN w))
  | 0x8#4 => decode8 (fieldX w) (fieldY w) (fieldN w)
  | 0x9#4 => if fieldN w = 0 then .ok (.sneReg (fieldX w) (fieldY w)) else .error .group9
  | 0xA#4 => .ok (.ldI (fieldNNN w))
  | 0xB#4 => .ok (.jpV0 (fieldNNN w))
  | 0xC#4 => .ok (.rnd (fieldX w) (fieldNN w))
  | 0xD#4 => .ok (.drw (fieldX w) (fieldY w) (fieldN w))
  | 0xE#4 => decodeE (fieldX w) (fieldNN w)
  | _ => decodeF (fieldX w) (fieldNN w)

/-- The big-endian word of two bytes, the byte at the lower address first (spec/20_memory.md R56). -/
def wordOfBytes (hi lo : Byte) : Word := hi ++ lo

/-- The byte of a word that lies at the lower address (spec/20_memory.md R56). -/
def highByte (w : Word) : Byte := w.extractLsb' 8 8

/-- The byte of a word that lies at the higher address (spec/20_memory.md R56). -/
def lowByte (w : Word) : Byte := w.extractLsb' 0 8

/-- Decoding from a byte sequence: exactly two bytes are consumed (R70), and the rest is handed back. -/
def decodeBytes : List Byte → Except Reject (Instr × List Byte)
  | hi :: lo :: rest =>
    match decodeWord (wordOfBytes hi lo) with
    | .ok i => .ok (i, rest)
    | .error e => .error e
  | _ => .error .truncated

/-! ### Encoding (R73) -/

/-- Format A: g, then nnn. -/
def packA (g : Nibble) (nnn : Addr) : Word := g ++ nnn

/-- Format XB: g, x, then nn. Formats XF share its layout, with nn the fixed selector. -/
def packXB (g x : Nibble) (nn : Byte) : Word := g ++ x ++ nn

/-- Formats XYF and XYN: g, x, y, then the last nibble. -/
def packXYN (g x y n : Nibble) : Word := g ++ x ++ y ++ n

/-- The word of an instruction: the pattern of its row of R73 with its fields filled in. -/
def encode : Instr → Word
  | .cls => 0x00E0#16
  | .ret => 0x00EE#16
  | .jpAddr nnn => packA 0x1 nnn
  | .callAddr nnn => packA 0x2 nnn
  | .seByte x nn => packXB 0x3 x nn
  | .sneByte x nn => packXB 0x4 x nn
  | .seReg x y => packXYN 0x5 x y 0x0
  | .ldByte x nn => packXB 0x6 x nn
  | .addByte x nn => packXB 0x7 x nn
  | .ldReg x y => packXYN 0x8 x y 0x0
  | .orReg x y => packXYN 0x8 x y 0x1
  | .andReg x y => packXYN 0x8 x y 0x2
  | .xorReg x y => packXYN 0x8 x y 0x3
  | .addReg x y => packXYN 0x8 x y 0x4
  | .subReg x y => packXYN 0x8 x y 0x5
  | .shrReg x y => packXYN 0x8 x y 0x6
  | .subnReg x y => packXYN 0x8 x y 0x7
  | .shlReg x y => packXYN 0x8 x y 0xE
  | .sneReg x y => packXYN 0x9 x y 0x0
  | .ldI nnn => packA 0xA nnn
  | .jpV0 nnn => packA 0xB nnn
  | .rnd x nn => packXB 0xC x nn
  | .drw x y n => packXYN 0xD x y n
  | .skp x => packXB 0xE x 0x9E
  | .sknp x => packXB 0xE x 0xA1
  | .ldVxDt x => packXB 0xF x 0x07
  | .ldVxK x => packXB 0xF x 0x0A
  | .ldDtVx x => packXB 0xF x 0x15
  | .ldStVx x => packXB 0xF x 0x18
  | .addI x => packXB 0xF x 0x1E
  | .ldF x => packXB 0xF x 0x29
  | .ldB x => packXB 0xF x 0x33
  | .storeRegs x => packXB 0xF x 0x55
  | .loadRegs x => packXB 0xF x 0x65

/-- The two bytes of an instruction as memory holds them, the high byte first (R70). -/
def encodeBytes (i : Instr) : List Byte := [highByte (encode i), lowByte (encode i)]

/-! ### The opcode table of R73 as data -/

/-- Rows 1 to 19 of R73. -/
def opcodeTableLow : List Row :=
  [⟨1, 0xFFFF, 0x00E0, .W⟩, ⟨2, 0xFFFF, 0x00EE, .W⟩, ⟨3, 0xF000, 0x1000, .A⟩, ⟨4, 0xF000, 0x2000, .A⟩,
   ⟨5, 0xF000, 0x3000, .XB⟩, ⟨6, 0xF000, 0x4000, .XB⟩, ⟨7, 0xF00F, 0x5000, .XYF⟩, ⟨8, 0xF000, 0x6000, .XB⟩,
   ⟨9, 0xF000, 0x7000, .XB⟩, ⟨10, 0xF00F, 0x8000, .XYF⟩, ⟨11, 0xF00F, 0x8001, .XYF⟩, ⟨12, 0xF00F, 0x8002, .XYF⟩,
   ⟨13, 0xF00F, 0x8003, .XYF⟩, ⟨14, 0xF00F, 0x8004, .XYF⟩, ⟨15, 0xF00F, 0x8005, .XYF⟩, ⟨16, 0xF00F, 0x8006, .XYF⟩,
   ⟨17, 0xF00F, 0x8007, .XYF⟩, ⟨18, 0xF00F, 0x800E, .XYF⟩, ⟨19, 0xF00F, 0x9000, .XYF⟩]

/-- Rows 20 to 34 of R73. -/
def opcodeTableHigh : List Row :=
  [⟨20, 0xF000, 0xA000, .A⟩, ⟨21, 0xF000, 0xB000, .A⟩, ⟨22, 0xF000, 0xC000, .XB⟩, ⟨23, 0xF000, 0xD000, .XYN⟩,
   ⟨24, 0xF0FF, 0xE09E, .XF⟩, ⟨25, 0xF0FF, 0xE0A1, .XF⟩, ⟨26, 0xF0FF, 0xF007, .XF⟩, ⟨27, 0xF0FF, 0xF00A, .XF⟩,
   ⟨28, 0xF0FF, 0xF015, .XF⟩, ⟨29, 0xF0FF, 0xF018, .XF⟩, ⟨30, 0xF0FF, 0xF01E, .XF⟩, ⟨31, 0xF0FF, 0xF029, .XF⟩,
   ⟨32, 0xF0FF, 0xF033, .XF⟩, ⟨33, 0xF0FF, 0xF055, .XF⟩, ⟨34, 0xF0FF, 0xF065, .XF⟩]

/-- The instruction list of R73. -/
def opcodeTable : List Row := opcodeTableLow ++ opcodeTableHigh

/-- A word matches a row when `(w & mask) == match` (R74). -/
def Row.matches (r : Row) (w : Word) : Bool := w &&& r.mask == r.value

/-! ### The host's numbering -/

/-- The 16-bit word of an instruction given as a number of `nbits` bits: the bits above `nbits` are 0, and the longest
instruction has 16 bits. -/
def tableWord (nbits w : Nat) : Word := BitVec.ofNat 16 (w % 2 ^ nbits)

/-- What the decoder reads from the bytes of that word as memory holds them. -/
def decodeTableWord (nbits w : Nat) : Option Instr :=
  match decodeBytes [highByte (tableWord nbits w), lowByte (tableWord nbits w)] with
  | .ok (i, _) => some i
  | .error _ => none

end Sys2Proof
end

