-- ==== Sys2Proof/Config.lean ====
section
/-! DEFINITION. What the spec leaves as a parameter: FONT and RAND (spec/00_scope.md R6). -/

namespace Sys2Proof.Config

/-- The RAND input of the n-th Cycle that `step` runs: a free value, any byte
(spec/60_exceptions.md R244, spec/92_eei_decisions.md D15; log entry 2). -/
opaque randByte : Nat → Byte

/-- Glyphs 0 to 7 of the default FONT (spec/92_eei_decisions.md D14). -/
def fontLow : Vector Byte 40 := #v[
  0xF0, 0x90, 0x90, 0x90, 0xF0,  0x20, 0x60, 0x20, 0x20, 0x70,
  0xF0, 0x10, 0xF0, 0x80, 0xF0,  0xF0, 0x10, 0xF0, 0x10, 0xF0,
  0x90, 0x90, 0xF0, 0x10, 0x10,  0xF0, 0x80, 0xF0, 0x10, 0xF0,
  0xF0, 0x80, 0xF0, 0x90, 0xF0,  0xF0, 0x10, 0x20, 0x40, 0x40]

/-- Glyphs 8 to F of the default FONT (spec/92_eei_decisions.md D14). -/
def fontHigh : Vector Byte 40 := #v[
  0xF0, 0x90, 0xF0, 0x90, 0xF0,  0xF0, 0x90, 0xF0, 0x10, 0xF0,
  0xF0, 0x90, 0xF0, 0x90, 0x90,  0xE0, 0x90, 0xE0, 0x90, 0xE0,
  0xF0, 0x80, 0x80, 0x80, 0xF0,  0xE0, 0x90, 0x90, 0x90, 0xE0,
  0xF0, 0x80, 0xF0, 0x80, 0xF0,  0xF0, 0x80, 0xF0, 0x80, 0x80]

/-- PRESUMED (log entry 1). The default value of the parameter FONT, which the spec marks as general knowledge and
not from the source (spec/92_eei_decisions.md D14, spec/93_implementation_defined.md K1). Only the reset state uses
it; the machine carries its FONT as data, so that a statement over all states holds for every FONT. -/
def defaultFont : Font := fontLow ++ fontHigh

end Sys2Proof.Config
end

