-- ==== Sys2Proof/Machine/State.lean ====
section
/-! DEFINITION. The state of the core: everything spec/10_state.md R20 lists, the parameter FONT, and the ports through which
a Cycle takes its input and returns its events. State is plain data. -/

namespace Sys2Proof.Machine

/-- The fault causes of spec/60_exceptions.md R221 (spec/10_state.md R36). -/
inductive FaultCause where
  /-- 0: no fault, the core runs -/
  | none
  /-- 1: a fetch with pc > 0xFFE (R222) -/
  | fetchOob
  /-- 2: an access through I above 0xFFF (R223) -/
  | dataOob
  /-- 3: a call with all 16 entries in use (R224) -/
  | stackOverflow
  /-- 4: a return with an empty stack (R225) -/
  | stackUnderflow
  /-- 5: a key index above 15 (R226) -/
  | keyIndex
  deriving DecidableEq, Repr

/-- The events a Cycle or a Load returns (spec/60_exceptions.md R245). -/
inductive Event where
  /-- ILLEGAL_OPCODE(pc, opcode), spec/30_encoding.md R75 -/
  | illegalOpcode (pc opcode : Word)
  /-- WAITING, spec/44_keys_timers.md R204 -/
  | waiting
  /-- FAULT(cause, pc, info), spec/60_exceptions.md R229 -/
  | fault (cause : FaultCause) (pc info : Word)
  /-- HALTED, spec/60_exceptions.md R231 -/
  | halted
  /-- BEEP, spec/60_exceptions.md R237 -/
  | beep
  /-- LOAD_REJECTED(length), spec/20_memory.md R63 -/
  | loadRejected (length : Nat)
  deriving DecidableEq, Repr

/-- Memory M (spec/20_memory.md R50): the bytes that differ from what initialisation put there, by rising address, over
the parameter FONT that initialisation copies to 0x000 to 0x04F (R52). What an unlisted address reads as is
`Memory.unlisted` in Ops.lean; the canonical form is `Memory.wf` there. -/
structure Memory where
  /-- the parameter FONT; no operation changes it (log entry 1) -/
  font  : Font
  /-- the listed bytes -/
  cells : List Host.Cell
  deriving DecidableEq, Repr

/-- The core's state. The fields down to `faultInfo` are the architectural state of spec/10_state.md R20; the last three are
the model's own: the input and output ports of a Cycle (log entries 2 and 3). -/
structure State where
  /-- V0 to VF (R21); V[15] is VF, the flag register (R22) -/
  v : Vector Byte 16
  /-- the index register I (R24) -/
  i : Word
  /-- the program counter: the next instruction to fetch between cycles, the executing one during a cycle (R25) -/
  pc : Word
  /-- the call stack's 16 entries (R29) -/
  stack : Vector Word 16
  /-- SP, the number of entries in use, 0 to 16 (R30) -/
  sp : Fin 17
  /-- the delay timer (R31) -/
  dt : Byte
  /-- the sound timer (R32) -/
  st : Byte
  /-- the memory (spec/20_memory.md R50) -/
  mem : Memory
  /-- the framebuffer (R33); row r is `fb[r]`, and bit c of a row is the pixel of column c -/
  fb : Frame
  /-- the redraw-needed flag (R34) -/
  redraw : Bool
  /-- the keypad latch; bit k is K[k] (R35, R38) -/
  keys : BitVec 16
  /-- fault_cause (R36); not `none` means the core is halted -/
  faultCause : FaultCause
  /-- fault_pc (R36) -/
  faultPc : Word
  /-- fault_opcode (R36) -/
  faultOpcode : Word
  /-- fault_info (R36) -/
  faultInfo : Word
  /-- the model's own: RAND, the input of the current Cycle (spec/60_exceptions.md R244) -/
  rand : Byte
  /-- the model's own: which free value the next `step` takes as its RAND -/
  inputs : Nat
  /-- the model's own: the events the latest Cycle or Load returned, in order (spec/60_exceptions.md R245) -/
  events : List Event
  deriving DecidableEq, Repr

/-- How a step could stop without a next state. It has no constructor: the spec's faults are an entry that records a cause
and halts the core (spec/60_exceptions.md R229, R231), which is a next state (log entry 4), and no behaviour is left
undefined (spec/00_scope.md R7). Nothing raises it. -/
inductive Fault
  deriving DecidableEq, Repr

/-- Why an instruction has no meaning in the model. -/
inductive Refusal where
  /-- raised by an arm of `exec` whose instruction has no meaning yet; safe, since nothing is claimed of it. No arm raises
  it: all 34 instructions have their meaning. -/
  | notModelled (mnemonic : String)
  deriving DecidableEq, Repr

/-- What executing an instruction, or a cycle, answers. -/
abbrev Answer := Host.Outcome State Fault Refusal

/-- The state after Initialize with a given FONT (spec/70_reset_and_hazards.md R261). -/
def State.resetWith (font : Font) : State where
  v := Vector.replicate 16 0
  i := 0
  pc := 0x200
  stack := Vector.replicate 16 0
  sp := 0
  dt := 0
  st := 0
  mem := ⟨font, []⟩
  fb := Vector.replicate 32 0
  redraw := true
  keys := 0
  faultCause := .none
  faultPc := 0
  faultOpcode := 0
  faultInfo := 0
  rand := 0
  inputs := 0
  events := []

/-- The machine right after reset (spec/70_reset_and_hazards.md R261), with the default FONT (log entry 1). -/
def State.reset : State := State.resetWith Config.defaultFont

end Sys2Proof.Machine
end

