-- ==== Sys2Proof/Machine/Ops.lean ====
section
/-! DEFINITION. The named operations over memory, registers, stack, events and timers, and taking a fault. -/

namespace Sys2Proof.Machine

/-! ### Memory (spec/20_memory.md) -/

/-- What an address nothing has written reads as: FONT at 0x000 to 0x04F, else 0 (spec/70_reset_and_hazards.md R261,
spec/20_memory.md R52; log entry 9). -/
def Memory.unlisted (m : Memory) (a : Nat) : Byte := if h : a < 80 then m.font[a] else 0

/-- The byte listed for an address, if one is. -/
def cellLookup (a : Nat) : List Host.Cell → Option Byte
  | [] => none
  | (a', b) :: rest => if a' = a then some b else cellLookup a rest

/-- M[a], for an address inside the address space (R50). -/
def Memory.read (m : Memory) (a : Nat) : Byte := (cellLookup a m.cells).getD (m.unlisted a)

/-- The list with the byte at an address replaced, in canonical form: `d` is what the address reads as when it is not
listed, so storing `d` takes the entry out. -/
def cellStore (d : Byte) (a : Nat) (b : Byte) : List Host.Cell → List Host.Cell
  | [] => if b = d then [] else [(a, b)]
  | (a', b') :: rest =>
    if a < a' then (if b = d then (a', b') :: rest else (a, b) :: (a', b') :: rest)
    else if a = a' then (if b = d then rest else (a, b) :: rest)
    else (a', b') :: cellStore d a b rest

/-- M[a] <- b (R54, R55). -/
def Memory.write (m : Memory) (a : Nat) (b : Byte) : Memory := ⟨m.font, cellStore (m.unlisted a) a b m.cells⟩

/-- Every address of the list is above `lo` and strictly rising. -/
def cellsAbove : Nat → List Host.Cell → Bool
  | _, [] => true
  | lo, (a, _) :: rest => decide (lo ≤ a) && cellsAbove (a + 1) rest

/-- The canonical form: addresses strictly rising and inside 0x000 to 0xFFF, and no entry equal to what the address reads
as when unlisted. -/
def Memory.wf (m : Memory) : Bool :=
  cellsAbove 0 m.cells && m.cells.all (fun c => decide (c.1 ≤ 0xFFF) && c.2 != m.unlisted c.1)

/-- `MemRead(a, 1)`: the byte at `a`, or the address that raises DataOOB (R53). -/
def memRead (m : Memory) (a : Nat) : Except Nat Byte := if a ≤ 0xFFF then .ok (m.read a) else .error a

/-- `MemWrite(a, 1, b)`: the memory after it, or the address that raises DataOOB (R54). -/
def memWrite (m : Memory) (a : Nat) (b : Byte) : Except Nat Memory := if a ≤ 0xFFF then .ok (m.write a b) else .error a

/-- `MemRead` of `k` bytes from `a` on, ascending (R58). -/
def readBlock (m : Memory) (a : Nat) : Nat → Except Nat (List Byte)
  | 0 => .ok []
  | k + 1 =>
    match memRead m a with
    | .error e => .error e
    | .ok b =>
      match readBlock m (a + 1) k with
      | .error e => .error e
      | .ok bs => .ok (b :: bs)

/-- `MemWrite` of the bytes from `a` on, ascending (R58). -/
def writeBlock (m : Memory) (a : Nat) : List Byte → Except Nat Memory
  | [] => .ok m
  | b :: bs =>
    match memWrite m a b with
    | .error e => .error e
    | .ok m' => writeBlock m' (a + 1) bs

/-- A host's copy of bytes from `a` on, with no check of its own (R63). -/
def copyBytes (m : Memory) (a : Nat) : List Byte → Memory
  | [] => m
  | b :: bs => copyBytes (m.write a b) (a + 1) bs

/-! ### Registers (spec/10_state.md) -/

/-- V[x] (R21). -/
def State.readV (s : State) (x : Nibble) : Byte := s.v[x.toNat]'x.isLt

/-- V[x] <- b (R21). -/
def State.setV (s : State) (x : Nibble) (b : Byte) : State := { s with v := s.v.set x.toNat b x.isLt }

/-- VF, the flag register, is V[15] (R22). -/
def State.setVF (s : State) (b : Byte) : State := s.setV 15#4 b

/-- I <- w (R24). -/
def State.setI (s : State) (w : Word) : State := { s with i := w }

/-- pc <- target (R25, R27). -/
def State.setPc (s : State) (target : Word) : State := { s with pc := target }

/-- The default advance, pc <- pc + 2 (R26). -/
def State.advance (s : State) : State := s.setPc (s.pc + 2)

/-- The advance of a skip instruction: by 4 when its condition holds, else by 2 (R26). -/
def State.skipIf (s : State) (c : Bool) : State := s.setPc (if c then s.pc + 4 else s.pc + 2)

/-- DT <- b (R31). -/
def State.setDt (s : State) (b : Byte) : State := { s with dt := b }

/-- ST <- b (R32). -/
def State.setSt (s : State) (b : Byte) : State := { s with st := b }

/-- The memory replaced. -/
def State.setMem (s : State) (m : Memory) : State := { s with mem := m }

/-- The framebuffer replaced, and `redraw` set, as 00E0 and Dxyn do (R33, R34). -/
def State.show (s : State) (fb : Frame) : State := { s with fb := fb, redraw := true }

/-- V[0] … V[k-1] in order (Fx55). -/
def State.firstRegs (s : State) (k : Nat) : List Byte := s.v.toList.take k

/-- V[j], V[j+1], … <- the bytes, ascending (Fx65). -/
def fillRegs (v : Vector Byte 16) (j : Nat) : List Byte → Vector Byte 16
  | [] => v
  | b :: bs => fillRegs (v.setIfInBounds j b) (j + 1) bs

/-- FB[p], pixel (p mod 64, p / 64) (R33). -/
def pixel (fb : Frame) (p : Nat) : Bool := if h : p / 64 < 32 then fb[p / 64].getLsbD (p % 64) else false

/-! ### The call stack (spec/10_state.md R29, R30) -/

/-- `stack[SP] <- pc; SP <- SP + 1`, or nothing when the stack is full. -/
def State.push (s : State) : Option State :=
  if h : s.sp.val < 16 then
    some { s with stack := s.stack.set s.sp.val s.pc h, sp := ⟨s.sp.val + 1, Nat.succ_lt_succ h⟩ }
  else none

/-- `SP <- SP - 1`, and the entry there; nothing when the stack is empty. The entry keeps its value (D18). -/
def State.pop (s : State) : Option (Word × State) :=
  if h : 0 < s.sp.val then
    some (s.stack[s.sp.val - 1]'(Nat.lt_of_lt_of_le (Nat.sub_lt h Nat.one_pos) (Nat.le_of_lt_succ s.sp.isLt)),
      { s with sp := ⟨s.sp.val - 1, Nat.lt_of_le_of_lt (Nat.sub_le _ _) s.sp.isLt⟩ })
  else none

/-! ### Events, faults and reset (spec/60_exceptions.md) -/

/-- `emit E` (spec/00_scope.md R10): the event joins the output of this cycle. -/
def State.emit (s : State) (e : Event) : State := { s with events := s.events ++ [e] }

/-- The code of a fault cause (R221). -/
def FaultCause.code : FaultCause → BitVec 3
  | .none => 0
  | .fetchOob => 1
  | .dataOob => 2
  | .stackOverflow => 3
  | .stackUnderflow => 4
  | .keyIndex => 5

/-- The core is halted while `fault_cause` is not NONE (R231). -/
def State.halted (s : State) : Bool := s.faultCause != .none

/-- `raise F(info)`, fault entry (R229): the four fault registers and the FAULT event, and nothing else. `pc` still is the
faulting instruction's own address (R230). -/
def State.raise (s : State) (cause : FaultCause) (opcode info : Word) : State :=
  { s with
    faultCause := cause
    faultPc := s.pc
    faultOpcode := opcode
    faultInfo := info
    events := s.events ++ [.fault cause s.pc info] }

/-- Initialize, the only way out of a fault (R231): every piece of state as at reset, with the core's own FONT
(spec/70_reset_and_hazards.md R260 to R262). The count of free inputs goes on, so that later inputs are fresh ones
(log entry 6). -/
def State.reinit (s : State) : State := { State.resetWith s.mem.font with inputs := s.inputs }

/-! ### The timer step (spec/60_exceptions.md R235 to R237) -/

/-- One count of a timer: down by one until 0, and then 0 (R236). -/
def countDown (b : Byte) : Byte := if b = 0 then 0 else b - 1

/-- `TimerStep()`: both timers count, and BEEP is emitted when ST was 1 (R235, R237; conflict C10). -/
def State.timerStep (s : State) : State :=
  { s with
    dt := countDown s.dt
    st := countDown s.st
    events := if s.st = 1 then s.events ++ [.beep] else s.events }

/-! ### Fetch (spec/30_encoding.md R76, R77) -/

/-- `{MemRead(pc, 1), MemRead(pc + 1, 1)}`, or nothing when pc > 0xFFE. -/
def State.fetch (s : State) : Option Word :=
  match readBlock s.mem s.pc.toNat 2 with
  | .ok [hi, lo] => some (wordOfBytes hi lo)
  | _ => none

/-- The state with a word stored where the next cycle fetches. A halted core fetches nothing and a pc above 0xFFE reaches
no word, so there the fault is cleared and pc set to the program area's start (log entry 8). -/
def State.placeWord (s : State) (w : Word) : State :=
  let pc := if s.pc.toNat ≤ 0xFFE then s.pc else 0x200
  { s with
    pc := pc
    faultCause := .none
    mem := copyBytes s.mem pc.toNat [highByte w, lowByte w] }

end Sys2Proof.Machine
end

