-- ==== Sys2Proof/Machine/Flags.lean ====
section
/-! DEFINITION. The flag values (spec/10_state.md R22, R37): the core has no condition codes, a flag is a byte an instruction
writes into VF. Each is computed on mathematical integers (spec/00_scope.md R9). -/

namespace Sys2Proof.Machine

/-- A condition as a flag byte, 1 or 0. -/
def flagOf (c : Bool) : Byte := if c then 1 else 0

/-- The no-borrow flag of `a - b`: 0 if b > a, else 1, so equality is no borrow (spec/42_alu.md R157, R159). -/
def noBorrow (a b : Byte) : Byte := if b.toNat > a.toNat then 0 else 1

/-- The bit a left shift pushes out, bit 7 (spec/42_alu.md R160). -/
def topBit (a : Byte) : Byte := a >>> 7

/-- The I-overflow flag: 1 if the unbounded sum exceeds 0xFFF (spec/43_index_memory.md R181). -/
def indexOverflow (i : Word) (b : Byte) : Byte := if i.toNat + b.toNat > 0xFFF then 1 else 0

end Sys2Proof.Machine
end

