-- ==== Sys2Proof/Machine/Operands.lean ====
section
/-! DEFINITION. The operand forms (spec/20_memory.md R59, spec/30_encoding.md R72): register and immediate operands, the key a
register names, the bytes reached through I, and the pixels a sprite reaches. -/

namespace Sys2Proof.Machine

/-! ### Through I (spec/43_index_memory.md R185) -/

/-- The range check of the `k` bytes I to I+k-1: the `fault_info` of the DataOOB it raises, if it fails. The sum is a
mathematical integer, and no byte means no check. -/
def rangeFault (i : Word) (k : Nat) : Option Nat :=
  if 1 ≤ k ∧ i.toNat + k - 1 > 0xFFF then some (max i.toNat 0x1000) else none

/-- Read the `k` bytes from I on and go on with them; a failed check raises DataOOB and changes nothing else. -/
def State.loadThroughI (s : State) (opcode : Word) (k : Nat) (body : List Byte → Answer) : Answer :=
  match rangeFault s.i k with
  | some info => .next (s.raise .dataOob opcode (BitVec.ofNat 16 info))
  | none =>
    match readBlock s.mem s.i.toNat k with
    | .error a => .next (s.raise .dataOob opcode (BitVec.ofNat 16 a))
    | .ok bytes => body bytes

/-- Write the bytes from I on and go on in the state after it; a failed check raises DataOOB and changes nothing else. -/
def State.storeThroughI (s : State) (opcode : Word) (bytes : List Byte) (body : State → Answer) : Answer :=
  match rangeFault s.i bytes.length with
  | some info => .next (s.raise .dataOob opcode (BitVec.ofNat 16 info))
  | none =>
    match writeBlock s.mem s.i.toNat bytes with
    | .error a => .next (s.raise .dataOob opcode (BitVec.ofNat 16 a))
    | .ok m => body (s.setMem m)

/-! ### Keys (spec/44_keys_timers.md) -/

/-- K[k] (spec/10_state.md R35). -/
def State.key (s : State) (k : Nat) : Bool := s.keys.getLsbD k

/-- Go on with whether the key V[x] names is pressed; a register that names no key raises KeyIndex (R200, R201). -/
def State.withKey (s : State) (opcode : Word) (x : Nibble) (body : Bool → Answer) : Answer :=
  if (s.readV x).toNat > 15 then .next (s.raise .keyIndex opcode (zextByte (s.readV x)))
  else body (s.key (s.readV x).toNat)

/-- The highest pressed key: a scan of all 16 indices that keeps the last one it records (R203, decision D11). -/
def highestKey (keys : BitVec 16) : Option Nat :=
  (List.range 16).foldl (fun found k => if keys.getLsbD k then some k else found) none

/-! ### Sprites (spec/40_display.md R101, R102) -/

/-- Bit c of a sprite row, counted from the most significant bit. -/
def spriteBit (row : Byte) (c : Nat) : Bool := row.getLsbD (7 - c)

/-- Toggle pixel (px, py) and note a collision; a pixel off the screen is skipped (R102). The pair is the framebuffer and
whether a pixel that was on has been toggled. -/
def plot (px py : Nat) (acc : Frame × Bool) : Frame × Bool :=
  if h : px ≤ 63 ∧ py ≤ 31 then
    have hy : py < 32 := Nat.lt_succ_of_le h.2
    (acc.1.set py (acc.1[py] ^^^ BitVec.twoPow 64 px) hy, acc.2 || acc.1[py].getLsbD px)
  else acc

/-- One row of a sprite: its 8 bits from column ox on. -/
def plotRow (ox py : Nat) (row : Byte) (acc : Frame × Bool) : Frame × Bool :=
  (List.range 8).foldl (fun acc c => if spriteBit row c then plot (ox + c) py acc else acc) acc

/-- The rows of a sprite, from row oy down. -/
def blit (ox oy : Nat) : List Byte → Frame × Bool → Frame × Bool
  | [], acc => acc
  | row :: rows, acc => blit ox (oy + 1) rows (plotRow ox oy row acc)

end Sys2Proof.Machine
end

