-- ==== Sys2Proof/Machine/Alu.lean ====
section
/-! DEFINITION. The register and ALU instructions (spec/42_alu.md). Statements run in order, and a read after the VF write sees
the new VF (spec/00_scope.md R11). -/

namespace Sys2Proof.Machine

/-- 6xnn LD Vx, byte (R150). -/
def execLdByte (x : Nibble) (nn : Byte) (s : State) : Answer := .next (s.setV x nn).advance

/-- 7xnn ADD Vx, byte: no flag (R151). -/
def execAddByte (x : Nibble) (nn : Byte) (s : State) : Answer := .next (s.setV x (s.readV x + nn)).advance

/-- 8xy0 LD Vx, Vy (R152). -/
def execLdReg (x y : Nibble) (s : State) : Answer := .next (s.setV x (s.readV y)).advance

/-- 8xy1 OR Vx, Vy (R153). -/
def execOrReg (x y : Nibble) (s : State) : Answer := .next (s.setV x (s.readV x ||| s.readV y)).advance

/-- 8xy2 AND Vx, Vy (R154). -/
def execAndReg (x y : Nibble) (s : State) : Answer := .next (s.setV x (s.readV x &&& s.readV y)).advance

/-- 8xy3 XOR Vx, Vy (R155). -/
def execXorReg (x y : Nibble) (s : State) : Answer := .next (s.setV x (s.readV x ^^^ s.readV y)).advance

/-- 8xy4 ADD Vx, Vy: no carry flag (R156). -/
def execAddReg (x y : Nibble) (s : State) : Answer := .next (s.setV x (s.readV x + s.readV y)).advance

/-- 8xy5 SUB Vx, Vy: the no-borrow flag into VF, then the difference of the operands as they are then (R157). -/
def execSubReg (x y : Nibble) (s : State) : Answer :=
  let t := s.setVF (noBorrow (s.readV x) (s.readV y))
  .next (t.setV x (t.readV x - t.readV y)).advance

/-- 8xy6 SHR Vx, Vy: no flag, and V[y] is not read (R158). -/
def execShrReg (x _y : Nibble) (s : State) : Answer := .next (s.setV x (s.readV x >>> 1)).advance

/-- 8xy7 SUBN Vx, Vy: the no-borrow flag into VF, then the reverse difference (R159). -/
def execSubnReg (x y : Nibble) (s : State) : Answer :=
  let t := s.setVF (noBorrow (s.readV y) (s.readV x))
  .next (t.setV x (t.readV y - t.readV x)).advance

/-- 8xyE SHL Vx, Vy: bit 7 into VF, then V[x] as it is then shifted; V[y] is not read (R160). -/
def execShlReg (x _y : Nibble) (s : State) : Answer :=
  let t := s.setVF (topBit (s.readV x))
  .next (t.setV x (t.readV x <<< 1)).advance

/-- Cxnn RND Vx, byte: the cycle's RAND input and the immediate (R161). -/
def execRnd (x : Nibble) (nn : Byte) (s : State) : Answer := .next (s.setV x (s.rand &&& nn)).advance

end Sys2Proof.Machine
end

