-- ==== Sys2Proof/Machine/Display.lean ====
section
/-! DEFINITION. The display instructions (spec/40_display.md). -/

namespace Sys2Proof.Machine

/-- 00E0 CLS: every pixel off, `redraw` set (R100). -/
def execCls (s : State) : Answer := .next (s.show (Vector.replicate 32 0)).advance

/-- Dxyn DRW: the origin is read first, then VF is cleared, then the sprite is toggled in, and a collision sets VF; `redraw`
is set whatever was drawn (R101 to R103). -/
def execDrw (x y n : Nibble) (s : State) : Answer :=
  s.loadThroughI (encode (.drw x y n)) n.toNat fun rows =>
    let drawn := blit (s.readV x).toNat (s.readV y).toNat rows (s.fb, false)
    .next ((s.setVF (flagOf drawn.2)).show drawn.1).advance

end Sys2Proof.Machine
end

