-- ==== Sys2Proof/Machine/Flow.lean ====
section
/-! DEFINITION. The control transfer and skip instructions (spec/41_flow.md). -/

namespace Sys2Proof.Machine

/-- 00EE RET: pop, and go on two past the popped address (R120). -/
def execRet (s : State) : Answer :=
  match s.pop with
  | some (target, t) => .next (t.setPc (target + 2))
  | none => .next (s.raise .stackUnderflow (encode .ret) 0)

/-- 1nnn JP addr (R121). -/
def execJpAddr (nnn : Addr) (s : State) : Answer := .next (s.setPc (zextAddr nnn))

/-- 2nnn CALL addr: push the call's own address, then jump (R122). -/
def execCallAddr (nnn : Addr) (s : State) : Answer :=
  match s.push with
  | some t => .next (t.setPc (zextAddr nnn))
  | none => .next (s.raise .stackOverflow (encode (.callAddr nnn)) 16)

/-- 3xnn SE Vx, byte (R123). -/
def execSeByte (x : Nibble) (nn : Byte) (s : State) : Answer := .next (s.skipIf (s.readV x == nn))

/-- 4xnn SNE Vx, byte (R124). -/
def execSneByte (x : Nibble) (nn : Byte) (s : State) : Answer := .next (s.skipIf (s.readV x != nn))

/-- 5xy0 SE Vx, Vy (R125). -/
def execSeReg (x y : Nibble) (s : State) : Answer := .next (s.skipIf (s.readV x == s.readV y))

/-- 9xy0 SNE Vx, Vy (R126). -/
def execSneReg (x y : Nibble) (s : State) : Answer := .next (s.skipIf (s.readV x != s.readV y))

/-- Bnnn JP V0, addr: a 16-bit sum, not masked to 12 bits (R127). -/
def execJpV0 (nnn : Addr) (s : State) : Answer := .next (s.setPc (zextByte (s.readV 0) + zextAddr nnn))

end Sys2Proof.Machine
end

