-- ==== Sys2Proof/Machine/Index.lean ====
section
/-! DEFINITION. The index register and memory instructions (spec/43_index_memory.md). -/

namespace Sys2Proof.Machine

/-- Annn LD I, addr (R180). -/
def execLdI (nnn : Addr) (s : State) : Answer := .next (s.setI (zextAddr nnn)).advance

/-- Fx1E ADD I, Vx: the overflow flag into VF, then the sum with V[x] as it is then, truncated to 16 bits (R181). -/
def execAddI (x : Nibble) (s : State) : Answer :=
  let t := s.setVF (indexOverflow s.i (s.readV x))
  .next (t.setI (t.i + zextByte (t.readV x))).advance

/-- Fx29 LD F, Vx: V[x] is not reduced to a digit (R182). -/
def execLdF (x : Nibble) (s : State) : Answer := .next (s.setI (zextByte (s.readV x) * 5)).advance

/-- The three bytes Fx33 stores, by the literal formula (R183). -/
def bcdBytes (v : Byte) : List Byte :=
  [BitVec.ofNat 8 (v.toNat / 100), BitVec.ofNat 8 (v.toNat / 10 % 10), BitVec.ofNat 8 (v.toNat % 100 % 10)]

/-- Fx33 LD B, Vx (R183). -/
def execLdB (x : Nibble) (s : State) : Answer :=
  s.storeThroughI (encode (.ldB x)) (bcdBytes (s.readV x)) fun t => .next t.advance

/-- Fx55 LD [I], Vx: V[0] to V[x] from I on, then I past them (R186). -/
def execStoreRegs (x : Nibble) (s : State) : Answer :=
  s.storeThroughI (encode (.storeRegs x)) (s.firstRegs (x.toNat + 1)) fun t =>
    .next (t.setI (t.i + BitVec.ofNat 16 (x.toNat + 1))).advance

/-- Fx65 LD Vx, [I]: V[0] to V[x] from I on, then I past them (R187). -/
def execLoadRegs (x : Nibble) (s : State) : Answer :=
  s.loadThroughI (encode (.loadRegs x)) (x.toNat + 1) fun bytes =>
    let t := { s with v := fillRegs s.v 0 bytes }
    .next (t.setI (t.i + BitVec.ofNat 16 (x.toNat + 1))).advance

end Sys2Proof.Machine
end

