-- ==== Sys2Proof/Machine/Keys.lean ====
section
/-! DEFINITION. The keypad and timer instructions (spec/44_keys_timers.md). -/

namespace Sys2Proof.Machine

/-- Ex9E SKP Vx: skip if the key is pressed (R200). -/
def execSkp (x : Nibble) (s : State) : Answer :=
  s.withKey (encode (.skp x)) x fun pressed => .next (s.skipIf pressed)

/-- ExA1 SKNP Vx: skip if the key is not pressed (R201). -/
def execSknp (x : Nibble) (s : State) : Answer :=
  s.withKey (encode (.sknp x)) x fun pressed => .next (s.skipIf (!pressed))

/-- Fx07 LD Vx, DT: DT before this cycle's timer step (R202). -/
def execLdVxDt (x : Nibble) (s : State) : Answer := .next (s.setV x s.dt).advance

/-- Fx0A LD Vx, K: the highest pressed key, or a blocked cycle that changes nothing and emits WAITING (R203, R204). -/
def execLdVxK (x : Nibble) (s : State) : Answer :=
  match highestKey s.keys with
  | some k => .next (s.setV x (BitVec.ofNat 8 k)).advance
  | none => .next (s.emit .waiting)

/-- Fx15 LD DT, Vx (R205). -/
def execLdDtVx (x : Nibble) (s : State) : Answer := .next (s.setDt (s.readV x)).advance

/-- Fx18 LD ST, Vx (R206). -/
def execLdStVx (x : Nibble) (s : State) : Answer := .next (s.setSt (s.readV x)).advance

end Sys2Proof.Machine
end

