-- ==== Sys2Proof/Machine/Cycle.lean ====
section
/-! DEFINITION. One cycle (spec/30_encoding.md R76) and the host's other operations (spec/60_exceptions.md R240). -/

namespace Sys2Proof.Machine

/-- The start of a Cycle: its RAND input is taken and its list of events is empty (spec/60_exceptions.md R244, R245). -/
def State.beginCycle (s : State) (rand : Byte) : State := { s with rand := rand, events := [] }

/-- An instruction completed: it raised no fault and did not block (spec/60_exceptions.md R235). -/
def State.completed (t : State) : Bool := !t.halted && !t.events.contains .waiting

/-- The end of a Cycle: the timer step, if an instruction completed (spec/30_encoding.md R76). -/
def State.finishCycle (t : State) : State := if t.completed then t.timerStep else t

/-- An unrecognized opcode: the event, and no other change (spec/30_encoding.md R75). -/
def State.illegal (s : State) (opcode : Word) : State := s.emit (.illegalOpcode s.pc opcode)

/-- `Cycle(rand)` (spec/30_encoding.md R76): a halted core only emits HALTED; else fetch, decode, execute, and the timer
step unless a fault was raised or the instruction blocked. -/
def cycle (rand : Byte) (s : State) : Answer :=
  let t := s.beginCycle rand
  if t.halted then .next (t.emit .halted)
  else
    match t.fetch with
    | none => .next (t.raise .fetchOob 0 t.pc)
    | some opcode =>
      match decodeWord opcode with
      | .error _ => .next (t.illegal opcode).finishCycle
      | .ok i =>
        match exec i t with
        | .next u => .next u.finishCycle
        | .fault r => .fault r
        | .refused r => .refused r

/-! ### The host's operations (spec/60_exceptions.md R240) -/

/-- `Load(buf, length)`: the program to 0x200 on, or the event LOAD_REJECTED and memory unchanged. The check is strict, so
at most 3583 bytes are accepted (spec/20_memory.md R63 to R65; conflict C2). -/
def State.load (s : State) (buf : List Byte) : State :=
  if buf.length < 4096 - 0x200 then { s with mem := copyBytes s.mem 0x200 buf, events := [] }
  else { s with events := [.loadRejected buf.length] }

/-- `SetKeys(k)`: the whole keypad latch is replaced (R241). -/
def State.setKeys (s : State) (k : BitVec 16) : State := { s with keys := k }

/-- `AckRedraw`: the redraw-needed flag is cleared (R243). -/
def State.ackRedraw (s : State) : State := { s with redraw := false }

/-- `ReadFrame`: the grid and the redraw-needed flag; it changes nothing (R242). -/
def State.readFrame (s : State) : Frame × Bool := (s.fb, s.redraw)

/-- `ReadStatus`: fault_cause, fault_pc, fault_opcode and fault_info; it changes nothing (R240). -/
def State.readStatus (s : State) : BitVec 3 × Word × Word × Word :=
  (s.faultCause.code, s.faultPc, s.faultOpcode, s.faultInfo)

/-- The operations through which the host reaches the core (R240). -/
inductive HostOp where
  | init
  | load (buf : List Byte)
  | setKeys (k : BitVec 16)
  | cycle (rand : Byte)
  | readFrame
  | ackRedraw
  | readStatus
  deriving DecidableEq, Repr

/-- One host operation, one indivisible step of the total order of spec/20_memory.md R60. -/
def hostOp (op : HostOp) (s : State) : Answer :=
  match op with
  | .init => .next s.reinit
  | .load buf => .next (s.load buf)
  | .setKeys k => .next (s.setKeys k)
  | .cycle rand => Sys2Proof.Machine.cycle rand s
  | .readFrame => .next s
  | .ackRedraw => .next s.ackRedraw
  | .readStatus => .next s

/-- A host's whole session: its operations in order (spec/70_reset_and_hazards.md R263). -/
def session : List HostOp → State → Answer
  | [], s => .next s
  | op :: ops, s =>
    match hostOp op s with
    | .next t => session ops t
    | .fault r => .fault r
    | .refused r => .refused r

end Sys2Proof.Machine
end

