-- ==== Sys2Proof/Machine/Step.lean ====
section
/-! DEFINITION. One step: one Cycle with a free RAND input. -/

namespace Sys2Proof.Machine

/-- One Cycle (spec/30_encoding.md R76). Its RAND input is the next free value, any byte (spec/60_exceptions.md R244; log
entry 2). The host's other operations happen between steps (spec/20_memory.md R60; log entry 7). -/
def step (s : State) : Host.Outcome State Fault Refusal :=
  cycle (Config.randByte s.inputs) { s with inputs := s.inputs + 1 }

/-- The state with an instruction's word stored where the next step fetches. -/
def State.withFetchWord (s : State) (nbits w : Nat) : State := s.placeWord (tableWord nbits w)

end Sys2Proof.Machine
end

