-- ==== Sys2Proof/WellFormed.lean ====
section
/-! DEFINITION. Well-formedness. Every term of `Instr` is well formed by its types: each operand has exactly the width of
its encoding field (spec/30_encoding.md R71, R72), and the spec puts no further condition on a field (R74 fixes nibbles, not
operands). What can be ill formed is a source line (R78): a register above VF, a byte above 255, a nibble above 15, an
address above 0xFFF, a raw word above 0xFFFF, `JP` through a register other than V0, or operands of the wrong kind. -/

namespace Sys2Proof

/-- `Vx` names one of V0 to VF (R78). -/
def regOk (r : Nat) : Bool := r < 16

/-- `byte` is an 8-bit value (R78). -/
def byteOk (n : Nat) : Bool := n < 256

/-- `nibble` is a 4-bit value (R78). -/
def nibbleOk (n : Nat) : Bool := n < 16

/-- `addr` is a 12-bit address (R78). -/
def addrOk (n : Nat) : Bool := n < 4096

/-- `DW 0xhhhh` emits one raw 16-bit word (R78). -/
def wordOk (n : Nat) : Bool := n < 65536

/-- The operand forms each mnemonic takes, with the range of each operand (the mnemonic column of R73, R78). -/
def operandsOk : Mnemonic → List Operand → Bool
  | .cls, [] => true
  | .ret, [] => true
  | .jp, [.num n] => addrOk n
  | .jp, [.v r, .num n] => r == 0 && addrOk n
  | .call, [.num n] => addrOk n
  | .se, [.v x, .num n] => regOk x && byteOk n
  | .se, [.v x, .v y] => regOk x && regOk y
  | .sne, [.v x, .num n] => regOk x && byteOk n
  | .sne, [.v x, .v y] => regOk x && regOk y
  | .ld, [.v x, .num n] => regOk x && byteOk n
  | .ld, [.v x, .v y] => regOk x && regOk y
  | .ld, [.i, .num n] => addrOk n
  | .ld, [.v x, .dt] => regOk x
  | .ld, [.v x, .k] => regOk x
  | .ld, [.dt, .v x] => regOk x
  | .ld, [.st, .v x] => regOk x
  | .ld, [.f, .v x] => regOk x
  | .ld, [.b, .v x] => regOk x
  | .ld, [.memI, .v x] => regOk x
  | .ld, [.v x, .memI] => regOk x
  | .add, [.v x, .num n] => regOk x && byteOk n
  | .add, [.v x, .v y] => regOk x && regOk y
  | .add, [.i, .v x] => regOk x
  | .or, [.v x, .v y] => regOk x && regOk y
  | .and, [.v x, .v y] => regOk x && regOk y
  | .xor, [.v x, .v y] => regOk x && regOk y
  | .sub, [.v x, .v y] => regOk x && regOk y
  | .shr, [.v x, .v y] => regOk x && regOk y
  | .subn, [.v x, .v y] => regOk x && regOk y
  | .shl, [.v x, .v y] => regOk x && regOk y
  | .rnd, [.v x, .num n] => regOk x && byteOk n
  | .drw, [.v x, .v y, .num n] => regOk x && regOk y && nibbleOk n
  | .skp, [.v x] => regOk x
  | .sknp, [.v x] => regOk x
  | _, _ => false

/-- A statement the assembler accepts (R78). -/
def Stmt.wellFormed : Stmt → Bool
  | .ins m ops => operandsOk m ops
  | .dw n => wordOk n

/-- A label is a nonempty name: a letter or `_`, then letters, digits or `_` (DESIGN CHOICE, log entry 12). -/
def labelOk : List Char → Bool
  | [] => false
  | c :: cs => (c.isAlpha || c == '_') && cs.all (fun d => d.isAlphanum || d == '_')

/-- A source line the assembler accepts (R78). -/
def Line.wellFormed (l : Line) : Bool := (l.label.all labelOk) && l.stmt.wellFormed

end Sys2Proof
end

