-- ==== Sys2Proof/Machine/Assembler.lean ====
section
/-! DEFINITION. Assembly and disassembly (spec/30_encoding.md R78 to R80). It is notation only and no part of a step: the machine
never sees a source line. -/

namespace Sys2Proof

/-! ### From a source line to its word (R78, R79) -/

/-- The instruction a mnemonic with operands stands for; the ranges are checked by `operandsOk`. -/
def instrOf : Mnemonic → List Operand → Option Instr
  | .cls, [] => some .cls
  | .ret, [] => some .ret
  | .jp, [.num n] => some (.jpAddr (BitVec.ofNat 12 n))
  | .jp, [.v _, .num n] => some (.jpV0 (BitVec.ofNat 12 n))
  | .call, [.num n] => some (.callAddr (BitVec.ofNat 12 n))
  | .se, [.v x, .num n] => some (.seByte (BitVec.ofNat 4 x) (BitVec.ofNat 8 n))
  | .se, [.v x, .v y] => some (.seReg (BitVec.ofNat 4 x) (BitVec.ofNat 4 y))
  | .sne, [.v x, .num n] => some (.sneByte (BitVec.ofNat 4 x) (BitVec.ofNat 8 n))
  | .sne, [.v x, .v y] => some (.sneReg (BitVec.ofNat 4 x) (BitVec.ofNat 4 y))
  | .ld, [.v x, .num n] => some (.ldByte (BitVec.ofNat 4 x) (BitVec.ofNat 8 n))
  | .ld, [.v x, .v y] => some (.ldReg (BitVec.ofNat 4 x) (BitVec.ofNat 4 y))
  | .ld, [.i, .num n] => some (.ldI (BitVec.ofNat 12 n))
  | .ld, [.v x, .dt] => some (.ldVxDt (BitVec.ofNat 4 x))
  | .ld, [.v x, .k] => some (.ldVxK (BitVec.ofNat 4 x))
  | .ld, [.dt, .v x] => some (.ldDtVx (BitVec.ofNat 4 x))
  | .ld, [.st, .v x] => some (.ldStVx (BitVec.ofNat 4 x))
  | .ld, [.f, .v x] => some (.ldF (BitVec.ofNat 4 x))
  | .ld, [.b, .v x] => some (.ldB (BitVec.ofNat 4 x))
  | .ld, [.memI, .v x] => some (.storeRegs (BitVec.ofNat 4 x))
  | .ld, [.v x, .memI] => some (.loadRegs (BitVec.ofNat 4 x))
  | .add, [.v x, .num n] => some (.addByte (BitVec.ofNat 4 x) (BitVec.ofNat 8 n))
  | .add, [.v x, .v y] => some (.addReg (BitVec.ofNat 4 x) (BitVec.ofNat 4 y))
  | .add, [.i, .v x] => some (.addI (BitVec.ofNat 4 x))
  | .or, [.v x, .v y] => some (.orReg (BitVec.ofNat 4 x) (BitVec.ofNat 4 y))
  | .and, [.v x, .v y] => some (.andReg (BitVec.ofNat 4 x) (BitVec.ofNat 4 y))
  | .xor, [.v x, .v y] => some (.xorReg (BitVec.ofNat 4 x) (BitVec.ofNat 4 y))
  | .sub, [.v x, .v y] => some (.subReg (BitVec.ofNat 4 x) (BitVec.ofNat 4 y))
  | .shr, [.v x, .v y] => some (.shrReg (BitVec.ofNat 4 x) (BitVec.ofNat 4 y))
  | .subn, [.v x, .v y] => some (.subnReg (BitVec.ofNat 4 x) (BitVec.ofNat 4 y))
  | .shl, [.v x, .v y] => some (.shlReg (BitVec.ofNat 4 x) (BitVec.ofNat 4 y))
  | .rnd, [.v x, .num n] => some (.rnd (BitVec.ofNat 4 x) (BitVec.ofNat 8 n))
  | .drw, [.v x, .v y, .num n] => some (.drw (BitVec.ofNat 4 x) (BitVec.ofNat 4 y) (BitVec.ofNat 4 n))
  | .skp, [.v x] => some (.skp (BitVec.ofNat 4 x))
  | .sknp, [.v x] => some (.sknp (BitVec.ofNat 4 x))
  | _, _ => none

/-- The one word a statement assembles to (R79); nothing if it is ill formed. -/
def Stmt.assemble (st : Stmt) : Option Word :=
  if st.wellFormed then
    match st with
    | .ins m ops => (instrOf m ops).map encode
    | .dw n => some (BitVec.ofNat 16 n)
  else none

/-- The two bytes a source line puts in memory, big-endian; its label places nothing. -/
def Line.assemble (l : Line) : Option (List Byte) :=
  if l.wellFormed then l.stmt.assemble.map fun w => [highByte w, lowByte w] else none

/-! ### From a word to a source statement (R80) -/

/-- The mnemonic and operands an instruction prints as. -/
def Instr.toStmt : Instr → Stmt
  | .cls => .ins .cls []
  | .ret => .ins .ret []
  | .jpAddr nnn => .ins .jp [.num nnn.toNat]
  | .callAddr nnn => .ins .call [.num nnn.toNat]
  | .seByte x nn => .ins .se [.v x.toNat, .num nn.toNat]
  | .sneByte x nn => .ins .sne [.v x.toNat, .num nn.toNat]
  | .seReg x y => .ins .se [.v x.toNat, .v y.toNat]
  | .ldByte x nn => .ins .ld [.v x.toNat, .num nn.toNat]
  | .addByte x nn => .ins .add [.v x.toNat, .num nn.toNat]
  | .ldReg x y => .ins .ld [.v x.toNat, .v y.toNat]
  | .orReg x y => .ins .or [.v x.toNat, .v y.toNat]
  | .andReg x y => .ins .and [.v x.toNat, .v y.toNat]
  | .xorReg x y => .ins .xor [.v x.toNat, .v y.toNat]
  | .addReg x y => .ins .add [.v x.toNat, .v y.toNat]
  | .subReg x y => .ins .sub [.v x.toNat, .v y.toNat]
  | .shrReg x y => .ins .shr [.v x.toNat, .v y.toNat]
  | .subnReg x y => .ins .subn [.v x.toNat, .v y.toNat]
  | .shlReg x y => .ins .shl [.v x.toNat, .v y.toNat]
  | .sneReg x y => .ins .sne [.v x.toNat, .v y.toNat]
  | .ldI nnn => .ins .ld [.i, .num nnn.toNat]
  | .jpV0 nnn => .ins .jp [.v 0, .num nnn.toNat]
  | .rnd x nn => .ins .rnd [.v x.toNat, .num nn.toNat]
  | .drw x y n => .ins .drw [.v x.toNat, .v y.toNat, .num n.toNat]
  | .skp x => .ins .skp [.v x.toNat]
  | .sknp x => .ins .sknp [.v x.toNat]
  | .ldVxDt x => .ins .ld [.v x.toNat, .dt]
  | .ldVxK x => .ins .ld [.v x.toNat, .k]
  | .ldDtVx x => .ins .ld [.dt, .v x.toNat]
  | .ldStVx x => .ins .ld [.st, .v x.toNat]
  | .addI x => .ins .add [.i, .v x.toNat]
  | .ldF x => .ins .ld [.f, .v x.toNat]
  | .ldB x => .ins .ld [.b, .v x.toNat]
  | .storeRegs x => .ins .ld [.memI, .v x.toNat]
  | .loadRegs x => .ins .ld [.v x.toNat, .memI]

/-- The statement a word prints as: the instruction of the row it matches, else `DW`. -/
def disassemble (w : Word) : Stmt :=
  match decodeWord w with
  | .ok i => i.toStmt
  | .error _ => .dw w.toNat

/-! ### Text (R78, R80; log entry 12) -/

/-- One uppercase hex digit. -/
def hexDigit (n : Nat) : Char := "0123456789ABCDEF".toList.getD n '0'

/-- `k` hex digits of a number, the most significant first. -/
def hexDigits : Nat → Nat → List Char
  | 0, _ => []
  | k + 1, n => hexDigits k (n / 16) ++ [hexDigit (n % 16)]

/-- `0x` and `k` hex digits. -/
def hexText (k n : Nat) : List Char := '0' :: 'x' :: hexDigits k n

/-- A nibble in decimal. -/
def nibbleText (n : Nat) : List Char := if n < 10 then [hexDigit n] else ['1', hexDigit (n - 10)]

/-- The name of a mnemonic. -/
def Mnemonic.name : Mnemonic → List Char
  | .cls => "CLS".toList
  | .ret => "RET".toList
  | .jp => "JP".toList
  | .call => "CALL".toList
  | .se => "SE".toList
  | .sne => "SNE".toList
  | .ld => "LD".toList
  | .add => "ADD".toList
  | .or => "OR".toList
  | .and => "AND".toList
  | .xor => "XOR".toList
  | .sub => "SUB".toList
  | .shr => "SHR".toList
  | .subn => "SUBN".toList
  | .shl => "SHL".toList
  | .rnd => "RND".toList
  | .drw => "DRW".toList
  | .skp => "SKP".toList
  | .sknp => "SKNP".toList

/-- Every mnemonic of R78. -/
def mnemonics : List Mnemonic :=
  [.cls, .ret, .jp, .call, .se, .sne, .ld, .add, .or, .and, .xor, .sub, .shr, .subn, .shl, .rnd, .drw, .skp, .sknp]

/-- How a number prints in a statement: `addr` with three hex digits, `nibble` in decimal, `byte` with two hex digits. -/
def numberText (m : Mnemonic) (ops : List Operand) (n : Nat) : List Char :=
  match m, ops with
  | .jp, _ => hexText 3 n
  | .call, _ => hexText 3 n
  | .ld, .i :: _ => hexText 3 n
  | .drw, _ => nibbleText n
  | _, _ => hexText 2 n

/-- One operand as text. -/
def operandText (m : Mnemonic) (ops : List Operand) : Operand → List Char
  | .v r => ['V', hexDigit r]
  | .num n => numberText m ops n
  | .i => ['I']
  | .dt => ['D', 'T']
  | .st => ['S', 'T']
  | .k => ['K']
  | .f => ['F']
  | .b => ['B']
  | .memI => ['[', 'I', ']']

/-- Texts with a comma and a space between them. -/
def commaList : List (List Char) → List Char
  | [] => []
  | [t] => t
  | t :: ts => t ++ [',', ' '] ++ commaList ts

/-- A statement as text. -/
def Stmt.text : Stmt → List Char
  | .ins m [] => m.name
  | .ins m ops => m.name ++ [' '] ++ commaList (ops.map (operandText m ops))
  | .dw n => ['D', 'W', ' '] ++ hexText 4 n

/-- The text a word prints as (R80). -/
def disassembleText (w : Word) : List Char := (disassemble w).text

/-- A space between tokens. -/
def isGap (c : Char) : Bool := c == ' ' || c == '\t'

/-- A text without the gaps around it. -/
def trimGaps (t : List Char) : List Char := ((t.dropWhile isGap).reverse.dropWhile isGap).reverse

/-- The pieces of a text between commas. -/
def splitCommas : List Char → List (List Char)
  | [] => [[]]
  | c :: cs =>
    match splitCommas cs with
    | [] => [[c]]
    | p :: ps => if c == ',' then [] :: p :: ps else (c :: p) :: ps

/-- The number a hex digit of either case stands for: the one that prints as that digit (R80). -/
def hexValue (c : Char) : Option Nat := (List.range 16).find? fun n => hexDigit n == c.toUpper

/-- The number a run of digits writes in a base, if each is a digit of that base. -/
def digitsValue (base : Nat) (ds : List Char) : Option Nat :=
  (ds.mapM fun c => (hexValue c).filter (· < base)).map (·.foldl (fun n d => n * base + d) 0)

/-- A number, hex with a `0x` prefix or decimal (R78). -/
def parseNumber : List Char → Option Nat
  | [] => none
  | ['0', 'x'] => none
  | '0' :: 'x' :: ds => digitsValue 16 ds
  | ds => digitsValue 10 ds

/-- One operand. -/
def parseOperand : List Char → Option Operand
  | ['I'] => some .i
  | ['D', 'T'] => some .dt
  | ['S', 'T'] => some .st
  | ['K'] => some .k
  | ['F'] => some .f
  | ['B'] => some .b
  | ['[', 'I', ']'] => some .memI
  | ['V', c] => (hexValue c).map .v
  | t => (parseNumber t).map .num

/-- The operands of a line. -/
def parseOperands (t : List Char) : Option (List Operand) :=
  if trimGaps t = [] then some [] else (splitCommas t).mapM fun p => parseOperand (trimGaps p)

/-- A statement: the mnemonic, then its operands. -/
def parseStmt (t : List Char) : Option Stmt :=
  let name := (trimGaps t).takeWhile (fun c => !isGap c)
  let rest := (trimGaps t).dropWhile (fun c => !isGap c)
  if name = ['D', 'W'] then (parseNumber (trimGaps rest)).map .dw
  else
    match mnemonics.find? (fun m => m.name == name) with
    | some m => (parseOperands rest).map (.ins m)
    | none => none

/-- A source line, `[label:] mnemonic operands` (R78). -/
def parseLine (t : List Char) : Option Line :=
  if t.contains ':' then
    (parseStmt ((t.dropWhile (· != ':')).drop 1)).map fun s => ⟨some (trimGaps (t.takeWhile (· != ':'))), s⟩
  else (parseStmt t).map fun s => ⟨none, s⟩

/-- The two bytes a line of text assembles to. -/
def assembleText (t : List Char) : Option (List Byte) := (parseLine t).bind Line.assemble

end Sys2Proof
end

