-- ==== Sys2Proof/Safety.lean ====
section
/-! DEFINITION. What counts as a safe run, and the terms claims use: the conditions a program must keep
(spec/70_reset_and_hazards.md R264), the invariant of every reachable state, what each instruction may write, and what a
sprite covers. The machine uses none of it. -/

namespace Sys2Proof

/-- How many bytes an instruction accesses through I: the k of spec/43_index_memory.md R185. -/
def Instr.bytesThroughI : Instr → Nat
  | .drw _ _ n => n.toNat
  | .ldB _ => 3
  | .storeRegs x => x.toNat + 1
  | .loadRegs x => x.toNat + 1
  | _ => 0

/-- The general registers an instruction may write: the writes column of spec/10_state.md R23. -/
def Instr.writesV (i : Instr) (r : Nibble) : Bool :=
  match i with
  | .ldByte x _ => r == x
  | .addByte x _ => r == x
  | .ldReg x _ => r == x
  | .orReg x _ => r == x
  | .andReg x _ => r == x
  | .xorReg x _ => r == x
  | .addReg x _ => r == x
  | .subReg x _ => r == 15#4 || r == x
  | .shrReg x _ => r == x
  | .subnReg x _ => r == 15#4 || r == x
  | .shlReg x _ => r == 15#4 || r == x
  | .rnd x _ => r == x
  | .drw _ _ _ => r == 15#4
  | .ldVxDt x => r == x
  | .ldVxK x => r == x
  | .addI _ => r == 15#4
  | .loadRegs x => decide (r.toNat ≤ x.toNat)
  | _ => false

/-- The instructions that write I (spec/10_state.md R24). -/
def Instr.writesI : Instr → Bool
  | .ldI _ => true
  | .addI _ => true
  | .ldF _ => true
  | .storeRegs _ => true
  | .loadRegs _ => true
  | _ => false

/-- The instructions that write memory (spec/20_memory.md R67). -/
def Instr.writesM : Instr → Bool
  | .ldB _ => true
  | .storeRegs _ => true
  | _ => false

/-- The instructions that mutate the framebuffer and set `redraw` (spec/10_state.md R33, R34). -/
def Instr.draws : Instr → Bool
  | .cls => true
  | .drw _ _ _ => true
  | _ => false

/-- The instruction is `RND`, the only reader of RAND (spec/60_exceptions.md R244). -/
def Instr.readsRand : Instr → Bool
  | .rnd _ _ => true
  | _ => false

end Sys2Proof

namespace Sys2Proof.Machine

/-! ### Clear of faults (spec/70_reset_and_hazards.md R264) -/

/-- The DataOOB of an access to the `k` bytes from I on, with its `fault_info`, if some byte lies above 0xFFF
(spec/43_index_memory.md R185). -/
def State.dataFault (s : State) (k : Nat) : Option (FaultCause × Nat) :=
  if 1 ≤ k ∧ s.i.toNat + k > 0x1000 then some (.dataOob, max s.i.toNat 0x1000) else none

/-- The KeyIndex of a key skip on V[x] (spec/44_keys_timers.md R200, R201). -/
def State.keyFault (s : State) (x : Nibble) : Option (FaultCause × Nat) :=
  if (s.readV x).toNat > 15 then some (.keyIndex, (s.readV x).toNat) else none

/-- The fault an instruction raises in a state, with its `fault_info`: the table of spec/60_exceptions.md R221, less the
fetch. -/
def State.faultFor (s : State) (i : Instr) : Option (FaultCause × Nat) :=
  match i with
  | .callAddr _ => if s.sp.val = 16 then some (.stackOverflow, 16) else none
  | .ret => if s.sp.val = 0 then some (.stackUnderflow, 0) else none
  | .skp x => s.keyFault x
  | .sknp x => s.keyFault x
  | .drw _ _ n => s.dataFault n.toNat
  | .ldB _ => s.dataFault 3
  | .storeRegs x => s.dataFault (x.toNat + 1)
  | .loadRegs x => s.dataFault (x.toNat + 1)
  | _ => none

/-- The instruction raises no fault: call depth at most 16, I plus any access offset at most 0xFFF, the V[x] of SKP and SKNP
at most 15, and an entry for a return (R264). -/
def State.clearFor (s : State) (i : Instr) : Bool := (s.faultFor i).isNone

/-- The next cycle raises no fault: pc at most 0xFFE, and the instruction there, if the word is one, is clear. -/
def State.clear (s : State) : Bool :=
  match s.fetch with
  | none => false
  | some w =>
    match decodeWord w with
    | .ok i => s.clearFor i
    | .error _ => true

/-! ### The invariant of every reachable state -/

/-- The fault registers are as the table of spec/60_exceptions.md R221 says for the recorded cause: all zero while no fault
is recorded, else those of the faulting instruction, whose address the pc still holds (R229, R230). -/
def State.statusOk (s : State) : Prop :=
  match s.faultCause with
  | .none => s.faultPc = 0 ∧ s.faultOpcode = 0 ∧ s.faultInfo = 0
  | .fetchOob => s.faultPc = s.pc ∧ s.faultOpcode = 0 ∧ s.faultInfo = s.pc ∧ 0xFFE < s.pc.toNat
  | .dataOob =>
    s.faultPc = s.pc ∧ ∃ i, decodeWord s.faultOpcode = .ok i ∧ 1 ≤ i.bytesThroughI ∧
      0x1000 < s.i.toNat + i.bytesThroughI ∧ s.faultInfo.toNat = max s.i.toNat 0x1000
  | .stackOverflow =>
    s.faultPc = s.pc ∧ (∃ nnn, decodeWord s.faultOpcode = .ok (.callAddr nnn)) ∧ s.faultInfo = 16 ∧ s.sp.val = 16
  | .stackUnderflow => s.faultPc = s.pc ∧ s.faultOpcode = 0x00EE ∧ s.faultInfo = 0 ∧ s.sp.val = 0
  | .keyIndex =>
    s.faultPc = s.pc ∧ ∃ x, (decodeWord s.faultOpcode = .ok (.skp x) ∨ decodeWord s.faultOpcode = .ok (.sknp x)) ∧
      15 < (s.readV x).toNat ∧ s.faultInfo.toNat = (s.readV x).toNat

/-- The invariant: memory is in canonical form; the pc is at most 0x10FE (spec/10_state.md R27); every stack entry is the
address of a fetched call, at most 0xFFE (spec/60_exceptions.md R222); the fault registers are as R221 says. -/
abbrev State.Inv (s : State) : Prop :=
  s.mem.wf = true ∧ s.pc.toNat ≤ 0x10FE ∧ (∀ e ∈ s.stack.toList, e.toNat ≤ 0xFFE) ∧ s.statusOk

/-- A running core at the entry point with no program there: the word at 0x200 is 0x0000
(spec/70_reset_and_hazards.md R263). -/
def State.stalledAtEntry (s : State) : Prop :=
  s.faultCause = .none ∧ s.pc = 0x200 ∧ s.mem.read 0x200 = 0 ∧ s.mem.read 0x201 = 0

/-! ### What a claim says stays the same -/

/-- Every byte of memory reads as before. -/
def SameMemory (s t : State) : Prop := ∀ a, t.mem.read a = s.mem.read a

/-- Every byte of memory outside the `k` bytes from `base` on reads as before. -/
def SameMemoryOutside (base k : Nat) (s t : State) : Prop :=
  ∀ a, a < base ∨ base + k ≤ a → t.mem.read a = s.mem.read a

/-- What address `a` reads as in `m` with the bytes stored from `base` on. -/
def Memory.over (m : Memory) (base : Nat) (bytes : List Byte) (a : Nat) : Byte :=
  if h : base ≤ a ∧ a - base < bytes.length then bytes[a - base]'h.2 else m.read a

/-- Every fetch in `t`, from whatever address the pc holds, reads `s`'s memory with the bytes stored from `base` on. -/
def FetchesOver (base : Nat) (bytes : List Byte) (s t : State) : Prop :=
  ∀ p : Word, p.toNat ≤ 0xFFE → { t with pc := p }.fetch =
    some (wordOfBytes (s.mem.over base bytes p.toNat) (s.mem.over base bytes (p.toNat + 1)))

/-- Every general register but `x` is unchanged. -/
def SameRegsBut (x : Nibble) (s t : State) : Prop := ∀ r, r ≠ x → t.readV r = s.readV r

/-- Only general registers and the pc changed: I, the stack, the timers, memory, the framebuffer, `redraw`, the keypad, the
fault registers and the ports are as before. -/
def OnlyRegsAndPc (s t : State) : Prop := t = { s with v := t.v, pc := t.pc } ∧ SameMemory s t

/-- The pc went on by `k` bytes (spec/10_state.md R26, R27). -/
def PcOn (k : Nat) (s t : State) : Prop := t.pc.toNat = (s.pc.toNat + k) % 65536

/-- The result of a plain register instruction: V[x] has the value, every other register and all other state is unchanged,
and the pc goes on by 2. -/
def RegResult (x : Nibble) (value : Nat) (s t : State) : Prop :=
  (t.readV x).toNat = value ∧ SameRegsBut x s t ∧ OnlyRegsAndPc s t ∧ PcOn 2 s t

/-- The state fault entry leaves (spec/60_exceptions.md R229): the four fault registers and the FAULT event. -/
def faulted (s : State) (cause : FaultCause) (opcode info : Word) : State :=
  { s with
    faultCause := cause, faultPc := s.pc, faultOpcode := opcode, faultInfo := info
    events := s.events ++ [.fault cause s.pc info] }

/-- Only the pc changed. -/
def OnlyPc (s t : State) : Prop := t = { s with pc := t.pc } ∧ SameMemory s t

/-- The result of a skip: the pc goes on by 4 when the condition holds, else by 2, and nothing else changes. -/
def SkipResult (c : Prop) (s t : State) : Prop := OnlyPc s t ∧ (c → PcOn 4 s t) ∧ (¬ c → PcOn 2 s t)

/-- The state the timer step leaves (spec/60_exceptions.md R235). -/
def ticked (s : State) : State :=
  { s with
    dt := if s.dt.toNat > 0 then BitVec.ofNat 8 (s.dt.toNat - 1) else 0
    st := if s.st.toNat > 0 then BitVec.ofNat 8 (s.st.toNat - 1) else 0
    events := s.events ++ (if s.st.toNat = 1 then [.beep] else []) }

/-! ### Sprites (spec/40_display.md) -/

/-- Pixel p is one the sprite toggles: it lies in the sprite's n rows and 8 columns from the origin (V[x], V[y]) on, and the
bit there is set. Pixels off the 64 by 32 grid are no p below 2048, so the clip of R102 is in it. -/
def State.covers (s : State) (x y n : Nibble) (p : Nat) : Bool :=
  let col := p % 64
  let row := p / 64
  let ox := (s.readV x).toNat
  let oy := (s.readV y).toNat
  decide (oy ≤ row ∧ row < oy + n.toNat ∧ ox ≤ col ∧ col < ox + 8) &&
    (s.mem.read (s.i.toNat + (row - oy))).getLsbD (7 - (col - ox))

end Sys2Proof.Machine
end

