-- ==== Sys2Proof/Certificates/Slice0/Obligations.lean ====
section
/-! DEFINITION. The statements about the model, each from the numbered rules of spec/. Where a rule carries the spec's own mark
[decision] (spec/92_eei_decisions.md), the docstring names the decision; the model adds none of its own to it. -/

open Sys2Proof Sys2Proof.Machine

/-! ## Encoding and decoding (spec/30_encoding.md) -/

/-- Every instruction, at every operand, decodes from its own two bytes, and what follows them is left (R70 to R74). -/
def Obligations.DecodingTheEncodedBytesGivesTheInstruction : Prop :=
  ∀ (i : Instr) (rest : List Byte), decodeBytes (encodeBytes i ++ rest) = .ok (i, rest)

/-- The other direction: each word has one meaning, so encoding what it decodes to gives the word back. -/
def Obligations.EncodingTheDecodedWordGivesTheWord : Prop :=
  ∀ (w : Word) (i : Instr), decodeWord w = .ok i → encode i = w

/-- R74 (decision D12): decode is exact, a word decodes to a row of the table of R73 when the masked word is the row's match. -/
def Obligations.WordDecodesToARowExactlyWhenItMatches : Prop :=
  ∀ (w : Word), ∀ row ∈ opcodeTable,
    (w &&& row.mask = row.value ↔ ∃ i, decodeWord w = .ok i ∧ i.rowNumber = row.number)

/-- R81: no word matches two rows, and 43,954 of the 65,536 words match one. -/
def Obligations.RowsAreDisjointAndMatch43954Words : Prop :=
  (∀ (w : Word), ∀ r₁ ∈ opcodeTable, ∀ r₂ ∈ opcodeTable, r₁.matches w = true → r₂.matches w = true → r₁ = r₂) ∧
  ((List.range 65536).filter fun n => opcodeTable.any fun r => r.matches (BitVec.ofNat 16 n)).length = 43954

/-- The classes of unrecognized words of R75: a word is rejected under a class's name exactly when it is in that class. -/
def Obligations.UnrecognizedWordsAreTheSixClasses : Prop :=
  ∀ (w : Word),
    (decodeWord w = .error .group0 ↔ w.toNat < 0x1000 ∧ w ≠ 0x00E0 ∧ w ≠ 0x00EE) ∧
    (decodeWord w = .error .group5 ↔ w.toNat / 4096 = 5 ∧ w.toNat % 16 ≠ 0) ∧
    (decodeWord w = .error .group8 ↔ w.toNat / 4096 = 8 ∧ w.toNat % 16 ∈ [8, 9, 10, 11, 12, 13, 15]) ∧
    (decodeWord w = .error .group9 ↔ w.toNat / 4096 = 9 ∧ w.toNat % 16 ≠ 0) ∧
    (decodeWord w = .error .groupE ↔ w.toNat / 4096 = 14 ∧ w.toNat % 256 ∉ [0x9E, 0xA1]) ∧
    (decodeWord w = .error .groupF ↔
      w.toNat / 4096 = 15 ∧ w.toNat % 256 ∉ [0x07, 0x0A, 0x15, 0x18, 0x1E, 0x29, 0x33, 0x55, 0x65]) ∧
    decodeWord w ≠ .error .truncated

/-- Words of R73's patterns with their fields filled in by hand, one for each family. -/
def Obligations.WordsOfThePatternsDecode : Prop :=
  decodeWord 0x00E0 = .ok .cls ∧ decodeWord 0xD12F = .ok (.drw 1 2 15) ∧ decodeWord 0x00EE = .ok .ret ∧
  decodeWord 0x2210 = .ok (.callAddr 0x210) ∧ decodeWord 0x8A75 = .ok (.subReg 10 7) ∧
  decodeWord 0xC10F = .ok (.rnd 1 0x0F) ∧ decodeWord 0xF265 = .ok (.loadRegs 2) ∧ decodeWord 0xEBA1 = .ok (.sknp 11)

/-- Disassembly and assembly agree (R78 to R80, decision D21): what a word prints as is well formed and assembles to that
one word. -/
def Obligations.AssemblingTheDisassemblyGivesTheWord : Prop :=
  ∀ (w : Word), (disassemble w).wellFormed = true ∧ (disassemble w).assemble = some w

/-! ## The cycle (spec/30_encoding.md R76, spec/60_exceptions.md) -/

/-- R76, R77 (decision D4): the whole procedure of a Cycle. A halted core emits HALTED; a pc above 0xFFE raises FETCH_OOB with
opcode 0 and the pc as info; else the opcode is the big-endian word at pc, an unrecognized one emits ILLEGAL_OPCODE and
runs the timer step, and a recognized one executes and then runs the timer step unless it raised a fault or blocked. -/
def Obligations.CycleFetchesDecodesExecutesThenTicks : Prop :=
  ∀ (r : Byte) (s : State),
    (s.faultCause ≠ .none → cycle r s = .next { s with rand := r, events := [.halted] }) ∧
    (s.faultCause = .none → s.pc.toNat > 0xFFE →
      cycle r s = .next (faulted { s with rand := r, events := [] } .fetchOob 0 s.pc)) ∧
    (s.faultCause = .none → s.pc.toNat ≤ 0xFFE → ∀ opcode : Word,
      opcode.toNat = (s.mem.read s.pc.toNat).toNat * 256 + (s.mem.read (s.pc.toNat + 1)).toNat →
      (∀ e, decodeWord opcode = .error e →
        cycle r s = .next (ticked { s with rand := r, events := [.illegalOpcode s.pc opcode] })) ∧
      (∀ i u, decodeWord opcode = .ok i → exec i { s with rand := r, events := [] } = .next u →
        cycle r s = .next (if u.faultCause ≠ .none ∨ .waiting ∈ u.events then u else ticked u)))

/-- A step runs the decoded instruction: with the RAND input the step takes, an empty list of events, and the timer step
after it unless it raised a fault or blocked (R76). That a step's RAND is the next free value is the model's (log entry 2). -/
def Obligations.StepRunsTheDecodedInstruction : Prop :=
  ∀ (s u : State) (i : Instr), s.faultCause = .none → s.pc.toNat ≤ 0xFFE →
    decodeBytes [s.mem.read s.pc.toNat, s.mem.read (s.pc.toNat + 1)] = .ok (i, []) →
    exec i { s with rand := Config.randByte s.inputs, inputs := s.inputs + 1, events := [] } = .next u →
    step s = .next (if u.faultCause ≠ .none ∨ .waiting ∈ u.events then u else ticked u)

/-- Every instruction in every state, and so every step and every host operation, answers a next state: a fault is a state
the core enters, not an end of the model (spec/60_exceptions.md R220, R229; the form is the model's, log entry 4). -/
def Obligations.EveryStepAnswersANextState : Prop :=
  (∀ i s, ∃ t, exec i s = .next t) ∧ (∀ s, ∃ t, step s = .next t) ∧ (∀ op s, ∃ t, hostOp op s = .next t)

/-- R231 (decision D26): while a fault is recorded a Cycle only emits HALTED; Initialize ends it; Load, SetKeys and AckRedraw
act as ever and leave the fault recorded. -/
def Obligations.HaltedCoreOnlyEmitsHaltedUntilInitialize : Prop :=
  ∀ (s : State), s.faultCause ≠ .none →
    (∀ r, hostOp (.cycle r) s = .next { s with rand := r, events := [.halted] }) ∧
    (∃ t, hostOp .init s = .next t ∧ t.faultCause = .none ∧ t.faultPc = 0 ∧ t.faultOpcode = 0 ∧ t.faultInfo = 0) ∧
    (∀ op t, op ≠ .init → hostOp op s = .next t →
      t.faultCause = s.faultCause ∧ t.faultPc = s.faultPc ∧ t.faultOpcode = s.faultOpcode ∧ t.faultInfo = s.faultInfo) ∧
    (∀ k, hostOp (.setKeys k) s = .next { s with keys := k }) ∧
    hostOp .ackRedraw s = .next { s with redraw := false } ∧
    (∀ buf t j, buf.length < 3584 → s.mem.wf = true → hostOp (.load buf) s = .next t → (hj : j < buf.length) →
      t.mem.read (0x200 + j) = buf[j])

/-- R227: an unrecognized opcode is no fault. The core emits ILLEGAL_OPCODE, leaves pc unchanged, runs the timer step, and
keeps running. -/
def Obligations.UnrecognizedOpcodeIsALoggedNoOp : Prop :=
  ∀ (r : Byte) (s : State) (w : Word) (e : Reject), s.faultCause = .none → s.fetch = some w → decodeWord w = .error e →
    ∃ t, cycle r s = .next t ∧ t.pc = s.pc ∧ t.faultCause = .none ∧ .illegalOpcode s.pc w ∈ t.events ∧
      t = ticked { s with rand := r, events := [.illegalOpcode s.pc w] }

/-- R229, R230 (decisions D2, D3): a cycle that raises a fault does fault entry and nothing else: the pc is not advanced,
nothing is written, and no timer step runs. -/
def Obligations.FaultingCycleOnlyEntersTheFault : Prop :=
  ∀ (r : Byte) (s t : State), s.faultCause = .none → cycle r s = .next t → t.faultCause ≠ .none →
    ∃ (opcode info : Word), t = faulted { s with rand := r, events := [] } t.faultCause opcode info ∧
      t.faultPc = s.pc ∧ t.pc = s.pc ∧ t.events = [.fault t.faultCause s.pc info] ∧
      (s.pc.toNat > 0xFFE → opcode = 0) ∧ (∀ w, s.fetch = some w → opcode = w)

/-- R221, R224 to R226 (decisions D2, D4 to D8): the codes, which fault a fetch and each instruction raises, when, and with
which `fault_info`; the recorded opcode is the instruction's word, and 0 for the fetch. An instruction whose condition does
not hold leaves the fault registers alone. -/
def Obligations.InstructionFaultsAsTheCauseTableSays : Prop :=
  ([FaultCause.none, .fetchOob, .dataOob, .stackOverflow, .stackUnderflow, .keyIndex].map fun c => c.code.toNat)
      = [0, 1, 2, 3, 4, 5] ∧
  (∀ (r : Byte) (s t : State), s.faultCause = .none → cycle r s = .next t →
    (t.faultCause = .fetchOob ↔ s.pc.toNat > 0xFFE) ∧
    (t.faultCause = .fetchOob → t.faultInfo = s.pc ∧ t.faultOpcode = 0)) ∧
  ∀ (i : Instr) (s : State), ∃ t, exec i s = .next t ∧
    match s.faultFor i with
    | some (cause, info) => t = faulted s cause (encode i) (BitVec.ofNat 16 info) ∧ info < 65536
    | none => t.faultCause = s.faultCause ∧ t.faultPc = s.faultPc ∧ t.faultOpcode = s.faultOpcode ∧
        t.faultInfo = s.faultInfo

/-- R264: a running core in a state that keeps the conditions, with an entry on the stack for a return (R225), steps without a
fault. -/
def Obligations.ClearStateStepsWithoutFault : Prop :=
  ∀ (s : State), s.faultCause = .none → s.clear = true → ∃ t, step s = .next t ∧ t.faultCause = .none

/-- R235: the timers count once after every completed instruction, an unrecognized opcode among them, on the value LD DT or
LD ST left; BEEP is emitted exactly when ST was then 1; a blocked, faulting or halted cycle counts nothing. -/
def Obligations.TimersCountOncePerCompletedInstruction : Prop :=
  (∀ (r : Byte) (s t : State), (s.faultCause ≠ .none ∨ s.fetch = none) → cycle r s = .next t →
    t.dt = s.dt ∧ t.st = s.st ∧ .beep ∉ t.events) ∧
  ∀ (r : Byte) (s t : State) (w : Word), s.faultCause = .none → s.fetch = some w → cycle r s = .next t →
    let dt := match decodeWord w with
      | .ok (.ldDtVx x) => s.readV x
      | _ => s.dt
    let st := match decodeWord w with
      | .ok (.ldStVx x) => s.readV x
      | _ => s.st
    if t.faultCause ≠ .none ∨ .waiting ∈ t.events then t.dt = s.dt ∧ t.st = s.st ∧ .beep ∉ t.events
    else t.dt.toNat = dt.toNat - 1 ∧ t.st.toNat = st.toNat - 1 ∧ (.beep ∈ t.events ↔ st.toNat = 1)

/-- R245 (decision D25): the events of a Cycle, in order: at most one of ILLEGAL_OPCODE, WAITING, FAULT and HALTED, then, if an
instruction or an unrecognized word completed, at most one BEEP; and a Load returns at most LOAD_REJECTED with the length. -/
def Obligations.EventsComeInOrder : Prop :=
  (∀ (r : Byte) (s t : State), cycle r s = .next t → ∃ first last, t.events = first ++ last ∧
    (first = [] ∨ (∃ w, s.fetch = some w ∧ first = [.illegalOpcode s.pc w]) ∨ first = [.waiting] ∨
      first = [.fault t.faultCause s.pc t.faultInfo] ∨ first = [.halted]) ∧
    (last = [] ∨ (last = [.beep] ∧ (first = [] ∨ ∃ w, first = [.illegalOpcode s.pc w])))) ∧
  ∀ (s : State) (buf : List Byte),
    (s.load buf).events = if buf.length < 3584 then [] else [.loadRejected buf.length]

/-- R244 (decision D15): only RND reads the cycle's RAND; every other instruction does the same whatever it is. -/
def Obligations.OnlyRndReadsTheRandomInput : Prop :=
  (∀ (r : Byte) (s t : State), cycle r s = .next t → t.rand = r) ∧
  ∀ (i : Instr) (s t : State) (r : Byte), i.readsRand = false → exec i s = .next t →
    exec i { s with rand := r } = .next { t with rand := r }

/-! ## The invariant -/

/-- The state after Initialize meets the invariant, whatever the FONT. -/
def Obligations.ResetStateMeetsTheInvariant : Prop := (∀ font, (State.resetWith font).Inv) ∧ State.reset.Inv

/-- Every step keeps the invariant: memory in canonical form, the pc at most 0x10FE (spec/10_state.md R27), every stack entry at
most 0xFFE (spec/60_exceptions.md R222), the fault registers as R221 says for the recorded cause. -/
def Obligations.StepKeepsTheInvariant : Prop := ∀ (s t : State), s.Inv → step s = .next t → t.Inv

/-- So does every host operation, a Cycle with any RAND among them. -/
def Obligations.HostOperationKeepsTheInvariant : Prop :=
  ∀ (op : HostOp) (s t : State), s.Inv → hostOp op s = .next t → t.Inv

/-- Every state a host can bring about from Initialize, with any FONT and any operations in any order, meets the invariant
(spec/20_memory.md R60, spec/60_exceptions.md R240). -/
def Obligations.EveryReachableStateMeetsTheInvariant : Prop :=
  ∀ (font : Font) (ops : List HostOp), ∃ t, session ops (State.resetWith font) = .next t ∧ t.Inv ∧ t.mem.font = font

/-! ## What an instruction may write -/

/-- The general registers: none is written but those spec/10_state.md R23 lists for the instruction. -/
def Obligations.InstructionWritesOnlyItsListedRegisters : Prop :=
  ∀ (i : Instr) (s t : State) (r : Nibble), exec i s = .next t → i.writesV r = false → t.readV r = s.readV r

/-- The rest of the state (spec/10_state.md R24, R29, R31 to R35; spec/20_memory.md R67): I is written by LD I, ADD I, LD F,
LD [I] and LD Vx,[I] only; memory by LD B and LD [I] only; the framebuffer and `redraw` by CLS and DRW only, which set
`redraw`; a stack entry by CALL only and SP by CALL and RET only; DT by LD DT only and ST by LD ST only; the keypad, FONT
and the input port by none. -/
def Obligations.InstructionWritesNoOtherState : Prop :=
  ∀ (i : Instr) (s t : State), exec i s = .next t →
    (i.writesI = false → t.i = s.i) ∧
    (i.writesM = false → t.mem = s.mem ∧ SameMemory s t) ∧
    (i.draws = false → t.fb = s.fb ∧ t.redraw = s.redraw) ∧
    (i.draws = true → s.faultFor i = none → t.redraw = true) ∧
    ((∀ a, i ≠ .callAddr a) → t.stack = s.stack) ∧
    ((∀ a, i ≠ .callAddr a) → i ≠ .ret → t.sp = s.sp) ∧
    ((∀ x, i ≠ .ldDtVx x) → t.dt = s.dt) ∧
    ((∀ x, i ≠ .ldStVx x) → t.st = s.st) ∧
    t.keys = s.keys ∧ t.mem.font = s.mem.font ∧ t.rand = s.rand ∧ t.inputs = s.inputs

/-- R26: the PC advance policy, row by row: by 2 by default, by 4 or 2 for a skip, to the target for a jump or a call, two past
the popped address for a return; unchanged for a blocked LD Vx, K, an unrecognized opcode, a faulting instruction and a
faulting fetch. -/
def Obligations.PcAdvancesByThePolicy : Prop :=
  (∀ (i : Instr) (s t : State), exec i s = .next t →
    (s.faultFor i ≠ none → t.pc = s.pc) ∧
    (s.faultFor i = none →
      match i with
      | .seByte x nn => PcOn (if s.readV x = nn then 4 else 2) s t
      | .sneByte x nn => PcOn (if s.readV x ≠ nn then 4 else 2) s t
      | .seReg x y => PcOn (if s.readV x = s.readV y then 4 else 2) s t
      | .sneReg x y => PcOn (if s.readV x ≠ s.readV y then 4 else 2) s t
      | .skp x => PcOn (if s.key (s.readV x).toNat then 4 else 2) s t
      | .sknp x => PcOn (if s.key (s.readV x).toNat then 2 else 4) s t
      | .jpAddr a => t.pc.toNat = a.toNat
      | .jpV0 a => t.pc.toNat = (s.readV 0).toNat + a.toNat
      | .callAddr a => t.pc.toNat = a.toNat
      | .ret => ∃ e, s.stack[s.sp.val - 1]? = some e ∧ t.pc.toNat = (e.toNat + 2) % 65536
      | .ldVxK _ => if s.keys = 0 then t.pc = s.pc else PcOn 2 s t
      | _ => PcOn 2 s t)) ∧
  ∀ (r : Byte) (s t : State), s.faultCause = .none → cycle r s = .next t →
    (s.fetch = none ∨ ∃ w e, s.fetch = some w ∧ decodeWord w = .error e) → t.pc = s.pc

/-! ## Display (spec/40_display.md) -/

/-- R100: CLS turns every pixel off, sets `redraw` and goes on by 2; it changes nothing else, VF included. -/
def Obligations.ClearScreenTurnsEveryPixelOff : Prop :=
  encode .cls = 0x00E0 ∧
  ∀ (s : State), ∃ t, exec .cls s = .next t ∧ (∀ p, p < 2048 → pixel t.fb p = false) ∧ t.redraw = true ∧ PcOn 2 s t ∧
    t = { s with fb := t.fb, redraw := t.redraw, pc := t.pc } ∧ SameMemory s t

/-- R101 (decisions D5, D9, D10), R102: DRW toggles exactly the on-screen pixels its set bits cover, with the origin read before
VF is cleared; VF is 1 exactly when a covered pixel was on; `redraw` is set; nothing else changes. When a row lies above
0xFFF it raises DataOOB with the first address outside, and draws nothing. -/
def Obligations.DrawTogglesTheCoveredPixels : Prop :=
  ∀ (x y n : Nibble) (s : State),
    (encode (.drw x y n)).toNat = 0xD000 + x.toNat * 256 + y.toNat * 16 + n.toNat ∧
    ((n = 0 ∨ s.i.toNat + n.toNat - 1 ≤ 0xFFF) → ∃ t, exec (.drw x y n) s = .next t ∧
      (∀ p, p < 2048 → pixel t.fb p = (pixel s.fb p ^^ s.covers x y n p)) ∧
      ((∃ p, p < 2048 ∧ s.covers x y n p = true ∧ pixel s.fb p = true) → t.readV 15#4 = 1) ∧
      ((∀ p, p < 2048 → s.covers x y n p = true → pixel s.fb p = false) → t.readV 15#4 = 0) ∧
      SameRegsBut 15#4 s t ∧ t.redraw = true ∧ PcOn 2 s t ∧
      t = { s with v := t.v, fb := t.fb, redraw := t.redraw, pc := t.pc } ∧ SameMemory s t) ∧
    (n ≠ 0 → s.i.toNat + n.toNat - 1 > 0xFFF →
      exec (.drw x y n) s =
        .next (faulted s .dataOob (encode (.drw x y n)) (BitVec.ofNat 16 (max s.i.toNat 0x1000))))

/-- The toggle law (spec/40_display.md R104, from R101 and R103): the same DRW twice restores the framebuffer, and the second
draw sets VF exactly when some covered pixel was off before the first. -/
def Obligations.DrawingTwiceRestoresTheFramebuffer : Prop :=
  ∀ (x y n : Nibble) (s t : State), x ≠ 15#4 → y ≠ 15#4 → s.faultFor (.drw x y n) = none → exec (.drw x y n) s = .next t →
    ∃ u, exec (.drw x y n) t = .next u ∧ u.fb = s.fb ∧
      ((∃ p, p < 2048 ∧ s.covers x y n p = true ∧ pixel s.fb p = false) → u.readV 15#4 = 1) ∧
      ((∀ p, p < 2048 → s.covers x y n p = true → pixel s.fb p = true) → u.readV 15#4 = 0)

/-! ## Control transfer and skips (spec/41_flow.md) -/

/-- R121, R127: a jump's target is nnn, or V0 + nnn not masked to 12 bits; nothing else changes. -/
def Obligations.JumpsSetThePc : Prop :=
  ∀ (nnn : Addr) (s : State),
    (encode (.jpAddr nnn)).toNat = 0x1000 + nnn.toNat ∧ (encode (.jpV0 nnn)).toNat = 0xB000 + nnn.toNat ∧
    (∃ t, exec (.jpAddr nnn) s = .next t ∧ t.pc.toNat = nnn.toNat ∧ OnlyPc s t) ∧
    (∃ t, exec (.jpV0 nnn) s = .next t ∧ t.pc.toNat = (s.readV 0).toNat + nnn.toNat ∧ OnlyPc s t)

/-- R122 (decisions D6, D20): a call pushes its own address and jumps; with 16 entries in use it raises StackOverflow. -/
def Obligations.CallPushesItsAddressAndJumps : Prop :=
  ∀ (nnn : Addr) (s : State),
    (encode (.callAddr nnn)).toNat = 0x2000 + nnn.toNat ∧
    (s.sp.val < 16 → ∃ t, exec (.callAddr nnn) s = .next t ∧
      t.stack[s.sp.val]? = some s.pc ∧ (∀ k : Nat, k ≠ s.sp.val → t.stack[k]? = s.stack[k]?) ∧
      t.sp.val = s.sp.val + 1 ∧ t.pc.toNat = nnn.toNat ∧
      t = { s with stack := t.stack, sp := t.sp, pc := t.pc } ∧ SameMemory s t) ∧
    (s.sp.val = 16 → exec (.callAddr nnn) s = .next (faulted s .stackOverflow (encode (.callAddr nnn)) 16))

/-- R120 (decision D7): a return pops the entry below SP and goes on two past it; the entry keeps its value (D18); with an empty
stack it raises StackUnderflow. -/
def Obligations.ReturnPopsAndGoesOnTwoPast : Prop :=
  encode .ret = 0x00EE ∧
  ∀ (s : State),
    (0 < s.sp.val → ∃ t e, exec .ret s = .next t ∧ s.stack[s.sp.val - 1]? = some e ∧
      t.pc.toNat = (e.toNat + 2) % 65536 ∧ t.sp.val = s.sp.val - 1 ∧
      t = { s with sp := t.sp, pc := t.pc } ∧ SameMemory s t) ∧
    (s.sp.val = 0 → exec .ret s = .next (faulted s .stackUnderflow 0x00EE 0))

/-- A call and the return from it (from R120 and R122): control resumes two past the call, with the stack pointer as before,
wherever the subroutine's return stands. -/
def Obligations.ReturnResumesAfterTheCall : Prop :=
  ∀ (nnn : Addr) (s t : State) (at_ : Word), s.sp.val < 16 → exec (.callAddr nnn) s = .next t →
    ∃ u, exec .ret { t with pc := at_ } = .next u ∧ PcOn 2 s u ∧ u.sp = s.sp

/-- R123 to R126: the four skips on registers: by 4 when the condition holds, else by 2, and nothing else changes. -/
def Obligations.SkipsGoOnByFourOrTwo : Prop :=
  ∀ (x y : Nibble) (nn : Byte) (s : State),
    (encode (.seByte x nn)).toNat = 0x3000 + x.toNat * 256 + nn.toNat ∧
    (encode (.sneByte x nn)).toNat = 0x4000 + x.toNat * 256 + nn.toNat ∧
    (encode (.seReg x y)).toNat = 0x5000 + x.toNat * 256 + y.toNat * 16 ∧
    (encode (.sneReg x y)).toNat = 0x9000 + x.toNat * 256 + y.toNat * 16 ∧
    (∃ t, exec (.seByte x nn) s = .next t ∧ SkipResult ((s.readV x).toNat = nn.toNat) s t) ∧
    (∃ t, exec (.sneByte x nn) s = .next t ∧ SkipResult ((s.readV x).toNat ≠ nn.toNat) s t) ∧
    (∃ t, exec (.seReg x y) s = .next t ∧ SkipResult ((s.readV x).toNat = (s.readV y).toNat) s t) ∧
    (∃ t, exec (.sneReg x y) s = .next t ∧ SkipResult ((s.readV x).toNat ≠ (s.readV y).toNat) s t)

/-! ## Registers and ALU (spec/42_alu.md) -/

/-- R150 to R156 and R158: the register instructions that write no flag, with their words. Each writes V[x] alone, modulo
256; SHR reads no V[y]. -/
def Obligations.FlaglessAluWritesOnlyVx : Prop :=
  ∀ (x y : Nibble) (nn : Byte) (s : State),
    let a := s.readV x
    let b := s.readV y
    let xn := x.toNat * 256 + nn.toNat
    let xy := x.toNat * 256 + y.toNat * 16
    ((encode (.ldByte x nn)).toNat = 0x6000 + xn ∧ (encode (.addByte x nn)).toNat = 0x7000 + xn ∧
      (encode (.ldReg x y)).toNat = 0x8000 + xy ∧ (encode (.orReg x y)).toNat = 0x8001 + xy ∧
      (encode (.andReg x y)).toNat = 0x8002 + xy ∧ (encode (.xorReg x y)).toNat = 0x8003 + xy ∧
      (encode (.addReg x y)).toNat = 0x8004 + xy ∧ (encode (.shrReg x y)).toNat = 0x8006 + xy) ∧
    (∃ t, exec (.ldByte x nn) s = .next t ∧ RegResult x nn.toNat s t) ∧
    (∃ t, exec (.addByte x nn) s = .next t ∧ RegResult x ((a.toNat + nn.toNat) % 256) s t) ∧
    (∃ t, exec (.ldReg x y) s = .next t ∧ RegResult x b.toNat s t) ∧
    (∃ t, exec (.orReg x y) s = .next t ∧ RegResult x (a.toNat ||| b.toNat) s t) ∧
    (∃ t, exec (.andReg x y) s = .next t ∧ RegResult x (a.toNat &&& b.toNat) s t) ∧
    (∃ t, exec (.xorReg x y) s = .next t ∧ RegResult x (a.toNat ^^^ b.toNat) s t) ∧
    (∃ t, exec (.addReg x y) s = .next t ∧ RegResult x ((a.toNat + b.toNat) % 256) s t) ∧
    (∃ t, exec (.shrReg x y) s = .next t ∧ RegResult x (a.toNat / 2) s t)

/-- R157 (decision D1): SUB. The flag is 0 if V[y] > V[x] and else 1; it is written first, and an operand that is VF is read
again after it. The clauses are the corner-case table of the rule. -/
def Obligations.SubtractWritesNoBorrowThenDifference : Prop :=
  ∀ (x y : Nibble) (s : State), ∃ t, exec (.subReg x y) s = .next t ∧
    (encode (.subReg x y)).toNat = 0x8005 + x.toNat * 256 + y.toNat * 16 ∧
    (let a := (s.readV x).toNat
     let b := (s.readV y).toNat
     let f := if b > a then 0 else 1
     (x ≠ 15#4 → y ≠ 15#4 → (t.readV 15#4).toNat = f ∧ (t.readV x).toNat = (a + 256 - b) % 256) ∧
     (x = 15#4 → y ≠ 15#4 → (t.readV 15#4).toNat = (f + 256 - b) % 256) ∧
     (x ≠ 15#4 → y = 15#4 → (t.readV 15#4).toNat = f ∧ (t.readV x).toNat = (a + 256 - f) % 256) ∧
     (x = y → x ≠ 15#4 → (t.readV 15#4).toNat = 1 ∧ (t.readV x).toNat = 0) ∧
     (x = 15#4 → y = 15#4 → (t.readV 15#4).toNat = 0)) ∧
    (∀ r, r ≠ x → r ≠ 15#4 → t.readV r = s.readV r) ∧ OnlyRegsAndPc s t ∧ PcOn 2 s t

/-- R159 (decision D1): SUBN, the reverse subtraction. The flag is 0 if V[x] > V[y] and else 1. -/
def Obligations.ReverseSubtractWritesNoBorrowThenDifference : Prop :=
  ∀ (x y : Nibble) (s : State), ∃ t, exec (.subnReg x y) s = .next t ∧
    (encode (.subnReg x y)).toNat = 0x8007 + x.toNat * 256 + y.toNat * 16 ∧
    (let a := (s.readV x).toNat
     let b := (s.readV y).toNat
     let f := if a > b then 0 else 1
     (x ≠ 15#4 → y ≠ 15#4 → (t.readV 15#4).toNat = f ∧ (t.readV x).toNat = (b + 256 - a) % 256) ∧
     (x = 15#4 → y ≠ 15#4 → (t.readV 15#4).toNat = (b + 256 - f) % 256) ∧
     (x ≠ 15#4 → y = 15#4 → (t.readV 15#4).toNat = f ∧ (t.readV x).toNat = (f + 256 - a) % 256) ∧
     (x = y → x ≠ 15#4 → (t.readV 15#4).toNat = 1 ∧ (t.readV x).toNat = 0) ∧
     (x = 15#4 → y = 15#4 → (t.readV 15#4).toNat = 0)) ∧
    (∀ r, r ≠ x → r ≠ 15#4 → t.readV r = s.readV r) ∧ OnlyRegsAndPc s t ∧ PcOn 2 s t

/-- R160 (decision D1): SHL. Bit 7 into VF, then V[x] as it is then doubled modulo 256; V[y] plays no part. -/
def Obligations.ShiftLeftWritesTopBitThenDouble : Prop :=
  ∀ (x y : Nibble) (s : State), ∃ t, exec (.shlReg x y) s = .next t ∧
    (encode (.shlReg x y)).toNat = 0x800E + x.toNat * 256 + y.toNat * 16 ∧
    (let a := (s.readV x).toNat
     (x ≠ 15#4 → (t.readV 15#4).toNat = a / 128 ∧ (t.readV x).toNat = (2 * a) % 256) ∧
     (x = 15#4 → (t.readV 15#4).toNat = 2 * (a / 128))) ∧
    (∀ r, r ≠ x → r ≠ 15#4 → t.readV r = s.readV r) ∧ OnlyRegsAndPc s t ∧ PcOn 2 s t

/-- R161 (decision D15): RND writes the cycle's RAND ANDed with the immediate, whatever byte RAND is, and so every `r AND nn`
is a possible result. -/
def Obligations.RandomByteIsMaskedByTheImmediate : Prop :=
  ∀ (x : Nibble) (nn r : Byte) (s : State), s.rand = r →
    (encode (.rnd x nn)).toNat = 0xC000 + x.toNat * 256 + nn.toNat ∧
    (∃ t, exec (.rnd x nn) s = .next t ∧ RegResult x (r.toNat &&& nn.toNat) s t)

/-! ## Index register and memory (spec/43_index_memory.md) -/

/-- R180, R182: LD I loads nnn; LD F loads 5 times V[x], not reduced to a digit; nothing else changes. -/
def Obligations.IndexLoadsSetI : Prop :=
  ∀ (nnn : Addr) (x : Nibble) (s : State),
    (encode (.ldI nnn)).toNat = 0xA000 + nnn.toNat ∧ (encode (.ldF x)).toNat = 0xF029 + x.toNat * 256 ∧
    (∃ t, exec (.ldI nnn) s = .next t ∧ t.i.toNat = nnn.toNat ∧ PcOn 2 s t ∧
      t = { s with i := t.i, pc := t.pc } ∧ SameMemory s t) ∧
    (∃ t, exec (.ldF x) s = .next t ∧ t.i.toNat = (s.readV x).toNat * 5 ∧ PcOn 2 s t ∧
      t = { s with i := t.i, pc := t.pc } ∧ SameMemory s t)

/-- R181 (decisions D1, D19): ADD I. VF is 1 if the unbounded sum exceeds 0xFFF, else 0, written first; I is the sum modulo 65536,
and with x = F the addend is the new flag. -/
def Obligations.AddToIndexWritesOverflowThenSum : Prop :=
  ∀ (x : Nibble) (s : State), ∃ t, exec (.addI x) s = .next t ∧
    (encode (.addI x)).toNat = 0xF01E + x.toNat * 256 ∧
    (let f := if s.i.toNat + (s.readV x).toNat > 0xFFF then 1 else 0
     (t.readV 15#4).toNat = f ∧
     (x ≠ 15#4 → t.i.toNat = (s.i.toNat + (s.readV x).toNat) % 65536) ∧
     (x = 15#4 → t.i.toNat = (s.i.toNat + f) % 65536)) ∧
    SameRegsBut 15#4 s t ∧ PcOn 2 s t ∧ t = { s with v := t.v, i := t.i, pc := t.pc } ∧ SameMemory s t

/-- R183 (decision D5): LD B stores the three digits of V[x] at I, I+1 and I+2 and changes no other byte; above 0xFFD it raises
DataOOB and stores nothing. The memory's canonical form is an invariant (StepKeepsTheInvariant). -/
def Obligations.DecimalDigitsAreStoredAtI : Prop :=
  ∀ (x : Nibble) (s : State), s.mem.wf = true →
    (encode (.ldB x)).toNat = 0xF033 + x.toNat * 256 ∧
    (s.i.toNat + 2 ≤ 0xFFF → ∃ t, exec (.ldB x) s = .next t ∧
      (t.mem.read s.i.toNat).toNat = (s.readV x).toNat / 100 ∧
      (t.mem.read (s.i.toNat + 1)).toNat = (s.readV x).toNat / 10 % 10 ∧
      (t.mem.read (s.i.toNat + 2)).toNat = (s.readV x).toNat % 100 % 10 ∧
      SameMemoryOutside s.i.toNat 3 s t ∧ PcOn 2 s t ∧ t = { s with mem := t.mem, pc := t.pc } ∧
      t.mem.font = s.mem.font) ∧
    (s.i.toNat + 2 > 0xFFF → exec (.ldB x) s =
      .next (faulted s .dataOob (encode (.ldB x)) (BitVec.ofNat 16 (max s.i.toNat 0x1000))))

/-- The BCD law (spec/43_index_memory.md R184, from R183; conflict C5): the stored bytes are the decimal digits of V[x]. -/
def Obligations.StoredDigitsAreTheDecimalDigits : Prop :=
  ∀ (x : Nibble) (s t : State), s.mem.wf = true → s.i.toNat + 2 ≤ 0xFFF → exec (.ldB x) s = .next t →
    let h := (t.mem.read s.i.toNat).toNat
    let d := (t.mem.read (s.i.toNat + 1)).toNat
    let u := (t.mem.read (s.i.toNat + 2)).toNat
    (s.readV x).toNat = h * 100 + d * 10 + u ∧ h ≤ 2 ∧ d ≤ 9 ∧ u ≤ 9

/-- R186 (decision D5): LD [I], Vx stores V[0] to V[x] from I on, then adds x + 1 to I; no other byte changes; when I + x exceeds
0xFFF it raises DataOOB and stores nothing. -/
def Obligations.RegistersAreStoredFromI : Prop :=
  ∀ (x : Nibble) (s : State), s.mem.wf = true →
    (encode (.storeRegs x)).toNat = 0xF055 + x.toNat * 256 ∧
    (s.i.toNat + x.toNat ≤ 0xFFF → ∃ t, exec (.storeRegs x) s = .next t ∧
      (∀ r : Nibble, r.toNat ≤ x.toNat → t.mem.read (s.i.toNat + r.toNat) = s.readV r) ∧
      SameMemoryOutside s.i.toNat (x.toNat + 1) s t ∧ t.i.toNat = s.i.toNat + x.toNat + 1 ∧ PcOn 2 s t ∧
      t = { s with mem := t.mem, i := t.i, pc := t.pc } ∧ t.mem.font = s.mem.font) ∧
    (s.i.toNat + x.toNat > 0xFFF → exec (.storeRegs x) s =
      .next (faulted s .dataOob (encode (.storeRegs x)) (BitVec.ofNat 16 (max s.i.toNat 0x1000))))

/-- R187 (decision D5): LD Vx, [I] loads V[0] to V[x] from I on, then adds x + 1 to I; the registers above x and all of memory
are unchanged; when I + x exceeds 0xFFF it raises DataOOB and loads nothing. -/
def Obligations.RegistersAreLoadedFromI : Prop :=
  ∀ (x : Nibble) (s : State),
    (encode (.loadRegs x)).toNat = 0xF065 + x.toNat * 256 ∧
    (s.i.toNat + x.toNat ≤ 0xFFF → ∃ t, exec (.loadRegs x) s = .next t ∧
      (∀ r : Nibble, r.toNat ≤ x.toNat → t.readV r = s.mem.read (s.i.toNat + r.toNat)) ∧
      (∀ r : Nibble, x.toNat < r.toNat → t.readV r = s.readV r) ∧
      t.i.toNat = s.i.toNat + x.toNat + 1 ∧ PcOn 2 s t ∧
      t = { s with v := t.v, i := t.i, pc := t.pc } ∧ SameMemory s t) ∧
    (s.i.toNat + x.toNat > 0xFFF → exec (.loadRegs x) s =
      .next (faulted s .dataOob (encode (.loadRegs x)) (BitVec.ofNat 16 (max s.i.toNat 0x1000))))

/-- R185 (decisions D3, D5): the range check of every instruction that reaches memory through I: it raises DataOOB exactly when
some byte I to I+k-1 lies above 0xFFF, with the lowest such address as info, and then changes nothing else. k is n for
DRW, 3 for LD B, x + 1 for LD [I] and LD Vx,[I]; with no byte there is no check. -/
def Obligations.RangeCheckGuardsEveryAccessThroughI : Prop :=
  ∀ (i : Instr) (k : Nat) (s : State),
    ((∃ x y n, i = .drw x y n ∧ k = n.toNat) ∨ (∃ x, i = .ldB x ∧ k = 3) ∨
      (∃ x, i = .storeRegs x ∧ k = x.toNat + 1) ∨ (∃ x, i = .loadRegs x ∧ k = x.toNat + 1)) →
    (1 ≤ k → s.i.toNat + k - 1 > 0xFFF →
      exec i s = .next (faulted s .dataOob (encode i) (BitVec.ofNat 16 (max s.i.toNat 0x1000)))) ∧
    (k = 0 ∨ s.i.toNat + k - 1 ≤ 0xFFF → ∃ t, exec i s = .next t ∧ t.faultCause = s.faultCause ∧ PcOn 2 s t)

/-! ## Keys and timers (spec/44_keys_timers.md) -/

/-- R200, R201 (decision D8): SKP and SKNP skip by the level of key V[x] and change nothing else; a V[x] above 15 raises KeyIndex
with V[x] as info. -/
def Obligations.KeySkipsTestTheKey : Prop :=
  ∀ (x : Nibble) (s : State),
    (encode (.skp x)).toNat = 0xE09E + x.toNat * 256 ∧ (encode (.sknp x)).toNat = 0xE0A1 + x.toNat * 256 ∧
    ((s.readV x).toNat ≤ 15 →
      (∃ t, exec (.skp x) s = .next t ∧ SkipResult (s.keys.getLsbD (s.readV x).toNat = true) s t) ∧
      (∃ t, exec (.sknp x) s = .next t ∧ SkipResult (s.keys.getLsbD (s.readV x).toNat = false) s t)) ∧
    ((s.readV x).toNat > 15 →
      exec (.skp x) s = .next (faulted s .keyIndex (encode (.skp x)) (BitVec.ofNat 16 (s.readV x).toNat)) ∧
      exec (.sknp x) s = .next (faulted s .keyIndex (encode (.sknp x)) (BitVec.ofNat 16 (s.readV x).toNat)))

/-- R202: LD Vx, DT reads DT as the previous cycle left it. -/
def Obligations.DelayTimerIsReadIntoVx : Prop :=
  ∀ (x : Nibble) (s : State),
    (encode (.ldVxDt x)).toNat = 0xF007 + x.toNat * 256 ∧
    ∃ t, exec (.ldVxDt x) s = .next t ∧ RegResult x s.dt.toNat s t

/-- R203 (decision D11), R204: with a key pressed LD Vx, K writes the highest pressed index and goes on; with none it changes
nothing and emits WAITING. -/
def Obligations.KeyWaitTakesTheHighestKeyOrBlocks : Prop :=
  ∀ (x : Nibble) (s : State),
    (encode (.ldVxK x)).toNat = 0xF00A + x.toNat * 256 ∧
    (∀ k, k < 16 → s.keys.getLsbD k = true → (∀ j, j < 16 → s.keys.getLsbD j = true → j ≤ k) →
      ∃ t, exec (.ldVxK x) s = .next t ∧ RegResult x k s t) ∧
    ((∀ k, k < 16 → s.keys.getLsbD k = false) →
      exec (.ldVxK x) s = .next { s with events := s.events ++ [.waiting] })

/-- R204 (decision D24): a blocked key-wait cycle changes no register, memory, pc, stack, framebuffer, `redraw` or timer, runs no
timer step and emits WAITING; the next cycle does the same again. -/
def Obligations.BlockedCycleChangesNothing : Prop :=
  ∀ (r r' : Byte) (x : Nibble) (s : State), s.faultCause = .none → s.fetch = some (encode (.ldVxK x)) → s.keys = 0 →
    cycle r s = .next { s with rand := r, events := [.waiting] } ∧
    cycle r' { s with rand := r, events := [.waiting] } = .next { s with rand := r', events := [.waiting] }

/-- The end of the wait (spec/60_exceptions.md R250): SetKeys with at least one key pressed lets the next Cycle complete LD Vx, K. -/
def Obligations.PressingAKeyEndsTheWait : Prop :=
  ∀ (r : Byte) (x : Nibble) (k : BitVec 16) (s : State), s.faultCause = .none → s.fetch = some (encode (.ldVxK x)) → k ≠ 0 →
    ∃ t, cycle r (s.setKeys k) = .next t ∧ PcOn 2 s t ∧ .waiting ∉ t.events ∧
      k.getLsbD (t.readV x).toNat = true ∧ t.dt.toNat = s.dt.toNat - 1

/-- R205, R206: LD DT and LD ST load the timer, and the timer step of the same cycle counts it; LD ST with 1 beeps at once. -/
def Obligations.TimersAreLoadedFromVx : Prop :=
  ∀ (x : Nibble) (s : State),
    (encode (.ldDtVx x)).toNat = 0xF015 + x.toNat * 256 ∧ (encode (.ldStVx x)).toNat = 0xF018 + x.toNat * 256 ∧
    (∃ t, exec (.ldDtVx x) s = .next t ∧ t.dt = s.readV x ∧ PcOn 2 s t ∧ t = { s with dt := t.dt, pc := t.pc } ∧
      SameMemory s t) ∧
    (∃ t, exec (.ldStVx x) s = .next t ∧ t.st = s.readV x ∧ PcOn 2 s t ∧ t = { s with st := t.st, pc := t.pc } ∧
      SameMemory s t) ∧
    (∀ r, s.faultCause = .none → s.fetch = some (encode (.ldDtVx x)) →
      ∃ t, cycle r s = .next t ∧ t.dt.toNat = (s.readV x).toNat - 1) ∧
    (∀ r, s.faultCause = .none → s.fetch = some (encode (.ldStVx x)) →
      ∃ t, cycle r s = .next t ∧ t.st.toNat = (s.readV x).toNat - 1 ∧ (.beep ∈ t.events ↔ (s.readV x).toNat = 1))

/-! ## Memory, reset and the host's operations (spec/20_memory.md, spec/70_reset_and_hazards.md, spec/60_exceptions.md) -/

/-- R53, R54 (decision D5): a byte access inside 0x000 to 0xFFF reads or writes that byte, and one above raises DataOOB with the
address as info. -/
def Obligations.ByteAccessIsInsideMemoryOrRaises : Prop :=
  ∀ (m : Memory) (a : Nat) (b : Byte), m.wf = true →
    (a ≤ 0xFFF → memRead m a = .ok (m.read a) ∧
      ∃ m', memWrite m a b = .ok m' ∧ m'.read a = b ∧ (∀ a', a' ≠ a → m'.read a' = m.read a') ∧ m'.wf = true) ∧
    (a > 0xFFF → memRead m a = .error a ∧ memWrite m a b = .error a)

/-- Fetch coherence (spec/20_memory.md R62): after a cycle that runs LD B or LD [I], Vx, and after an accepted Load, every
fetch, the next one among them and whatever its address, reads the bytes just stored where they lie, and what memory held
elsewhere. The cycle goes on by 2 and the core keeps running, so the next cycle is such a fetch. -/
def Obligations.StoreOverTheNextInstructionIsFetched : Prop :=
  ∀ (r : Byte) (x : Nibble) (s : State), s.mem.wf = true →
    (s.faultCause = .none → s.fetch = some (encode (.ldB x)) → s.i.toNat + 2 ≤ 0xFFF →
      ∃ t, cycle r s = .next t ∧ t.faultCause = .none ∧ PcOn 2 s t ∧
        FetchesOver s.i.toNat ([(s.readV x).toNat / 100, (s.readV x).toNat / 10 % 10, (s.readV x).toNat % 10].map
          (BitVec.ofNat 8)) s t) ∧
    (s.faultCause = .none → s.fetch = some (encode (.storeRegs x)) → s.i.toNat + x.toNat ≤ 0xFFF →
      ∃ t, cycle r s = .next t ∧ t.faultCause = .none ∧ PcOn 2 s t ∧
        FetchesOver s.i.toNat ((List.range (x.toNat + 1)).map fun j => s.readV (BitVec.ofNat 4 j)) s t) ∧
    (∀ buf : List Byte, buf.length < 3584 →
      ∃ t, hostOp (.load buf) s = .next t ∧ t.faultCause = s.faultCause ∧ t.pc = s.pc ∧ FetchesOver 0x200 buf s t)

/-- R261 (decisions D2, D13): the state Initialize leaves, whatever the FONT. -/
def Obligations.ResetStateIsAsTheRuleSays : Prop :=
  ∀ (font : Font),
    let s := State.resetWith font
    (∀ r, s.readV r = 0) ∧ s.i = 0 ∧ s.pc = 0x200 ∧ (∀ k : Fin 16, s.stack[k.val] = 0) ∧ s.sp = 0 ∧ s.dt = 0 ∧ s.st = 0 ∧
    (∀ a : Fin 80, s.mem.read a.val = font[a.val]) ∧ (∀ a, 0x50 ≤ a → a ≤ 0xFFF → s.mem.read a = 0) ∧
    (∀ p, p < 2048 → pixel s.fb p = false) ∧ s.redraw = true ∧ s.keys = 0 ∧
    s.faultCause.code = 0 ∧ s.faultPc = 0 ∧ s.faultOpcode = 0 ∧ s.faultInfo = 0

/-- Initialize is a complete reset (spec/70_reset_and_hazards.md R262, from R261): no value survives it but the core's parameter
FONT and the model's count of inputs (log entry 6), it emits no event, and two in a row are as one. -/
def Obligations.InitializeIsACompleteReset : Prop :=
  ∀ (s : State), ∃ t, hostOp .init s = .next t ∧ t = { State.resetWith s.mem.font with inputs := s.inputs } ∧
    t.events = [] ∧ hostOp .init t = .next t

/-- A core with no program stalls at 0x200 (spec/20_memory.md R65, spec/70_reset_and_hazards.md R263): from every running state
with pc 0x200 and a zero word there, each Cycle leaves such a state, emits ILLEGAL_OPCODE(0x200, 0) and changes nothing but
the timers, which count, and the model's ports. So a run of Cycles never leaves 0x200. The state after Initialize is such a
state, and a rejected Load keeps one. -/
def Obligations.UnloadedCoreStallsAtTheEntryPoint : Prop :=
  (∀ (r : Byte) (s : State), s.stalledAtEntry → ∃ t, cycle r s = .next t ∧ t.stalledAtEntry ∧
    .illegalOpcode 0x200 0 ∈ t.events ∧ t = ticked { s with rand := r, events := [.illegalOpcode 0x200 0] }) ∧
  (∀ font, (State.resetWith font).stalledAtEntry) ∧
  (∀ (s : State) (buf : List Byte), 3584 ≤ buf.length → s.stalledAtEntry →
    ∃ t, hostOp (.load buf) s = .next t ∧ t.stalledAtEntry)

/-- R63, R64 (conflict C2, decision D23): Load copies a program of at most 3583 bytes to 0x200 on and changes nothing else; a
longer one is rejected with its length, and memory is unchanged. -/
def Obligations.LoadCopiesTheProgramOrRejectsIt : Prop :=
  ∀ (s : State) (buf : List Byte), s.mem.wf = true →
    (buf.length < 3584 → ∃ t, hostOp (.load buf) s = .next t ∧
      (∀ j, (hj : j < buf.length) → t.mem.read (0x200 + j) = buf[j]) ∧ SameMemoryOutside 0x200 buf.length s t ∧
      t = { s with mem := t.mem, events := [] }) ∧
    (3584 ≤ buf.length → hostOp (.load buf) s = .next { s with events := [.loadRejected buf.length] })

/-- R241, R242, R243: SetKeys replaces the whole latch, which then keeps its value through every cycle; ReadFrame returns the
grid and the flag and changes nothing; AckRedraw clears the flag, a cycle never does, and a later CLS or DRW sets it again;
and the status ReadStatus returns. -/
def Obligations.HostPortsDoOnlyWhatTheySay : Prop :=
  ∀ (s : State) (k : BitVec 16),
    (∃ t, hostOp (.setKeys k) s = .next t ∧ (∀ j, j < 16 → t.key j = k.getLsbD j) ∧ t = { s with keys := t.keys }) ∧
    hostOp .readFrame s = .next s ∧ s.readFrame = (s.fb, s.redraw) ∧
    (∃ t, hostOp .ackRedraw s = .next t ∧ t.redraw = false ∧ t = { s with redraw := t.redraw }) ∧
    hostOp .readStatus s = .next s ∧ s.readStatus = (s.faultCause.code, s.faultPc, s.faultOpcode, s.faultInfo) ∧
    (∀ r t, cycle r s = .next t → t.keys = s.keys ∧ (s.redraw = true → t.redraw = true)) ∧
    (∀ i, i.draws = true → s.faultFor i = none → ∃ t, exec i s.ackRedraw = .next t ∧ t.redraw = true)
end

