-- ==== Sys2Proof/Laws/Decode.lean ====
section
/-! SUPPORT. The laws of the encoding fields: the number each field and each packed word is, what the fields of a packed word
are, and that a word is its fields packed. -/

namespace Sys2Proof

/-! ### Fields as numbers -/

theorem fieldG_toNat (w : Word) : (fieldG w).toNat = w.toNat / 4096 := by
  simp only [fieldG, BitVec.extractLsb'_toNat, Nat.shiftRight_eq_div_pow]; omega

theorem fieldX_toNat (w : Word) : (fieldX w).toNat = w.toNat / 256 % 16 := by
  simp only [fieldX, BitVec.extractLsb'_toNat, Nat.shiftRight_eq_div_pow]

theorem fieldY_toNat (w : Word) : (fieldY w).toNat = w.toNat / 16 % 16 := by
  simp only [fieldY, BitVec.extractLsb'_toNat, Nat.shiftRight_eq_div_pow]

theorem fieldN_toNat (w : Word) : (fieldN w).toNat = w.toNat % 16 := by
  simp only [fieldN, BitVec.extractLsb'_toNat, Nat.shiftRight_eq_div_pow]; omega

theorem fieldNN_toNat (w : Word) : (fieldNN w).toNat = w.toNat % 256 := by
  simp only [fieldNN, BitVec.extractLsb'_toNat, Nat.shiftRight_eq_div_pow]; omega

theorem fieldNNN_toNat (w : Word) : (fieldNNN w).toNat = w.toNat % 4096 := by
  simp only [fieldNNN, BitVec.extractLsb'_toNat, Nat.shiftRight_eq_div_pow]; omega

theorem highByte_toNat (w : Word) : (highByte w).toNat = w.toNat / 256 := by
  simp only [highByte, BitVec.extractLsb'_toNat, Nat.shiftRight_eq_div_pow]; omega

theorem lowByte_toNat (w : Word) : (lowByte w).toNat = w.toNat % 256 := by
  simp only [lowByte, BitVec.extractLsb'_toNat, Nat.shiftRight_eq_div_pow]; omega

/-! ### Packed words as numbers -/

theorem toNat_append_eq {m n : Nat} (a : BitVec m) (b : BitVec n) : (a ++ b).toNat = a.toNat * 2 ^ n + b.toNat := by
  rw [BitVec.toNat_append, ← Nat.shiftLeft_add_eq_or_of_lt b.isLt, Nat.shiftLeft_eq]

/-- A big-endian word is 256 times its first byte plus its second (spec/20_memory.md R56). -/
theorem wordOfBytes_toNat (hi lo : Byte) : (wordOfBytes hi lo).toNat = hi.toNat * 256 + lo.toNat :=
  toNat_append_eq hi lo

theorem packA_toNat (g : Nibble) (a : Addr) : (packA g a).toNat = g.toNat * 4096 + a.toNat := toNat_append_eq g a

theorem packXB_toNat (g x : Nibble) (nn : Byte) :
    (packXB g x nn).toNat = g.toNat * 4096 + x.toNat * 256 + nn.toNat := by
  have h : (packXB g x nn).toNat = (g ++ x).toNat * 2 ^ 8 + nn.toNat := toNat_append_eq (g ++ x) nn
  rw [h, toNat_append_eq g x]
  omega

theorem packXYN_toNat (g x y n : Nibble) :
    (packXYN g x y n).toNat = g.toNat * 4096 + x.toNat * 256 + y.toNat * 16 + n.toNat := by
  have h : (packXYN g x y n).toNat = (g ++ x ++ y).toNat * 2 ^ 4 + n.toNat := toNat_append_eq (g ++ x ++ y) n
  rw [h, toNat_append_eq (g ++ x) y, toNat_append_eq g x]
  omega

/-! ### Fields of packed words -/

@[simp] theorem fieldG_packA (g : Nibble) (a : Addr) : fieldG (packA g a) = g := by
  apply BitVec.eq_of_toNat_eq; rw [fieldG_toNat, packA_toNat]; have := a.isLt; omega

@[simp] theorem fieldNNN_packA (g : Nibble) (a : Addr) : fieldNNN (packA g a) = a := by
  apply BitVec.eq_of_toNat_eq; rw [fieldNNN_toNat, packA_toNat]; have := a.isLt; omega

@[simp] theorem fieldG_packXB (g x : Nibble) (nn : Byte) : fieldG (packXB g x nn) = g := by
  apply BitVec.eq_of_toNat_eq; rw [fieldG_toNat, packXB_toNat]; have := x.isLt; have := nn.isLt; omega

@[simp] theorem fieldX_packXB (g x : Nibble) (nn : Byte) : fieldX (packXB g x nn) = x := by
  apply BitVec.eq_of_toNat_eq; rw [fieldX_toNat, packXB_toNat]; have := x.isLt; have := nn.isLt; omega

@[simp] theorem fieldNN_packXB (g x : Nibble) (nn : Byte) : fieldNN (packXB g x nn) = nn := by
  apply BitVec.eq_of_toNat_eq; rw [fieldNN_toNat, packXB_toNat]; have := nn.isLt; omega

@[simp] theorem fieldG_packXYN (g x y n : Nibble) : fieldG (packXYN g x y n) = g := by
  apply BitVec.eq_of_toNat_eq; rw [fieldG_toNat, packXYN_toNat]
  have := x.isLt; have := y.isLt; have := n.isLt; omega

@[simp] theorem fieldX_packXYN (g x y n : Nibble) : fieldX (packXYN g x y n) = x := by
  apply BitVec.eq_of_toNat_eq; rw [fieldX_toNat, packXYN_toNat]
  have := x.isLt; have := y.isLt; have := n.isLt; omega

@[simp] theorem fieldY_packXYN (g x y n : Nibble) : fieldY (packXYN g x y n) = y := by
  apply BitVec.eq_of_toNat_eq; rw [fieldY_toNat, packXYN_toNat]
  have := y.isLt; have := n.isLt; omega

@[simp] theorem fieldN_packXYN (g x y n : Nibble) : fieldN (packXYN g x y n) = n := by
  apply BitVec.eq_of_toNat_eq; rw [fieldN_toNat, packXYN_toNat]; have := n.isLt; omega

/-! ### A word is its fields packed -/

theorem packA_fields (w : Word) : packA (fieldG w) (fieldNNN w) = w := by
  apply BitVec.eq_of_toNat_eq; rw [packA_toNat, fieldG_toNat, fieldNNN_toNat]; omega

theorem packXB_fields (w : Word) : packXB (fieldG w) (fieldX w) (fieldNN w) = w := by
  apply BitVec.eq_of_toNat_eq; rw [packXB_toNat, fieldG_toNat, fieldX_toNat, fieldNN_toNat]; omega

theorem packXYN_fields (w : Word) : packXYN (fieldG w) (fieldX w) (fieldY w) (fieldN w) = w := by
  apply BitVec.eq_of_toNat_eq; rw [packXYN_toNat, fieldG_toNat, fieldX_toNat, fieldY_toNat, fieldN_toNat]; omega

@[simp] theorem wordOfBytes_high_low (w : Word) : wordOfBytes (highByte w) (lowByte w) = w := by
  apply BitVec.eq_of_toNat_eq; rw [wordOfBytes_toNat, highByte_toNat, lowByte_toNat]; omega

@[simp] theorem highByte_wordOfBytes (hi lo : Byte) : highByte (wordOfBytes hi lo) = hi := by
  apply BitVec.eq_of_toNat_eq; rw [highByte_toNat, wordOfBytes_toNat]; have := lo.isLt; omega

@[simp] theorem lowByte_wordOfBytes (hi lo : Byte) : lowByte (wordOfBytes hi lo) = lo := by
  apply BitVec.eq_of_toNat_eq; rw [lowByte_toNat, wordOfBytes_toNat]; have := lo.isLt; omega

end Sys2Proof
end

