-- ==== Sys2Proof/Laws/Memory.lean ====
section
/-! SUPPORT. The laws of memory: a read after a write, the canonical form, and what the block operations do. -/

namespace Sys2Proof.Machine

/-! ### Cells -/

theorem cellLookup_cellStore_same (d : Byte) (a : Nat) (b : Byte) (cs : List Host.Cell) (lo : Nat)
    (h : cellsAbove lo cs = true) : (cellLookup a (cellStore d a b cs)).getD d = b := by
  induction cs generalizing lo with
  | nil => simp only [cellStore]; split <;> simp_all [cellLookup]
  | cons c rest ih =>
    obtain ⟨a', b'⟩ := c
    simp only [cellsAbove, Bool.and_eq_true, decide_eq_true_eq] at h
    have absent : ∀ l lo, cellsAbove lo l = true → a < lo → cellLookup a l = none := by
      intro l
      induction l with
      | nil => intros; rfl
      | cons c l ih =>
        intro lo hl hlt
        simp only [cellsAbove, Bool.and_eq_true, decide_eq_true_eq] at hl
        have hne : c.1 ≠ a := by omega
        simp [cellLookup, hne, ih _ hl.2 (by omega)]
    simp only [cellStore]
    split
    · rename_i hlt
      split
      · rename_i hb
        simp [cellLookup, show a' ≠ a by omega, absent rest _ h.2 (by omega), hb]
      · simp [cellLookup]
    · split
      · rename_i heq
        subst heq
        split
        · rename_i hb
          simp [absent rest _ h.2 (by omega), hb]
        · simp [cellLookup]
      · rename_i hne
        simp [cellLookup, show a' ≠ a by omega, ih _ h.2]

theorem cellLookup_cellStore_other (d : Byte) (a a₂ : Nat) (b : Byte) (cs : List Host.Cell) (hne : a₂ ≠ a) :
    cellLookup a₂ (cellStore d a b cs) = cellLookup a₂ cs := by
  induction cs with
  | nil => simp only [cellStore]; split <;> simp [cellLookup, Ne.symm hne]
  | cons c rest ih =>
    obtain ⟨a', b'⟩ := c
    simp only [cellStore]
    split
    · split
      · rfl
      · simp [cellLookup, Ne.symm hne]
    · split
      · rename_i heq
        subst heq
        split <;> simp [cellLookup, Ne.symm hne]
      · simp only [cellLookup, ih]

theorem cellsAbove_mono {lo lo' : Nat} {cs : List Host.Cell} (h : cellsAbove lo' cs = true) (hle : lo ≤ lo') :
    cellsAbove lo cs = true := by
  cases cs with
  | nil => rfl
  | cons c rest =>
    simp only [cellsAbove, Bool.and_eq_true, decide_eq_true_eq] at h ⊢
    exact ⟨by omega, h.2⟩

theorem cellsAbove_cellStore (d : Byte) (a : Nat) (b : Byte) (cs : List Host.Cell) (lo : Nat)
    (h : cellsAbove lo cs = true) (hlo : lo ≤ a) : cellsAbove lo (cellStore d a b cs) = true := by
  induction cs generalizing lo with
  | nil => simp only [cellStore]; split <;> simp [cellsAbove, hlo]
  | cons c rest ih =>
    obtain ⟨a', b'⟩ := c
    simp only [cellsAbove, Bool.and_eq_true, decide_eq_true_eq] at h
    simp only [cellStore]
    split
    · split
      · simp [cellsAbove, h]
      · simp only [cellsAbove, Bool.and_eq_true, decide_eq_true_eq]
        exact ⟨hlo, by omega, h.2⟩
    · split
      · rename_i heq
        subst heq
        split
        · exact cellsAbove_mono h.2 (by omega)
        · simp only [cellsAbove, Bool.and_eq_true, decide_eq_true_eq]
          exact ⟨hlo, h.2⟩
      · simp only [cellsAbove, Bool.and_eq_true, decide_eq_true_eq]
        exact ⟨h.1, ih _ h.2 (by omega)⟩

theorem all_cellStore (p : Host.Cell → Bool) (d : Byte) (a : Nat) (b : Byte) (cs : List Host.Cell)
    (h : cs.all p = true) (hp : b ≠ d → p (a, b) = true) : (cellStore d a b cs).all p = true := by
  induction cs with
  | nil =>
    simp only [cellStore]
    split
    · rfl
    · simp [hp (by assumption)]
  | cons c rest ih =>
    obtain ⟨a', b'⟩ := c
    simp only [List.all_cons, Bool.and_eq_true] at h
    simp only [cellStore]
    split
    · split
      · simp [h.1, h.2]
      · rename_i hb
        simp [hp hb, h.1, h.2]
    · split
      · split
        · exact h.2
        · rename_i hb
          simp [hp hb, h.2]
      · simp [h.1, ih h.2]

/-! ### Memory -/

@[simp] theorem Memory.write_font (m : Memory) (a : Nat) (b : Byte) : (m.write a b).font = m.font := rfl

@[simp] theorem Memory.write_unlisted (m : Memory) (a a₂ : Nat) (b : Byte) :
    (m.write a b).unlisted a₂ = m.unlisted a₂ := rfl

theorem Memory.wf_sorted {m : Memory} (h : m.wf = true) : cellsAbove 0 m.cells = true := by
  simp only [Memory.wf, Bool.and_eq_true] at h
  exact h.1

/-- A read after a write to the same address gives the byte written. -/
theorem Memory.read_write_same {m : Memory} (h : m.wf = true) (a : Nat) (b : Byte) : (m.write a b).read a = b :=
  cellLookup_cellStore_same (m.unlisted a) a b m.cells 0 (Memory.wf_sorted h)

/-- A write leaves every other address alone. -/
theorem Memory.read_write_other (m : Memory) {a a₂ : Nat} (b : Byte) (hne : a₂ ≠ a) :
    (m.write a b).read a₂ = m.read a₂ := by
  simp [Memory.read, Memory.write, Memory.unlisted, cellLookup_cellStore_other _ a a₂ b _ hne]

/-- A write inside the address space keeps the canonical form. -/
theorem Memory.write_wf {m : Memory} (h : m.wf = true) {a : Nat} (b : Byte) (ha : a ≤ 0xFFF) :
    (m.write a b).wf = true := by
  have hs := Memory.wf_sorted h
  simp only [Memory.wf, Bool.and_eq_true] at h ⊢
  refine ⟨cellsAbove_cellStore _ a b _ 0 hs (Nat.zero_le a), ?_⟩
  refine all_cellStore _ (m.unlisted a) a b m.cells h.2 (fun hb => ?_)
  simp only [Bool.and_eq_true, decide_eq_true_eq, bne_iff_ne, ne_eq]
  exact ⟨ha, hb⟩

/-- Memory right after reset, whatever the FONT, is in canonical form. -/
theorem Memory.resetWith_wf (font : Font) : (State.resetWith font).mem.wf = true := rfl

/-- In canonical form, a listed byte differs from the unlisted one. -/
theorem cellLookup_mem {a : Nat} {b : Byte} {cs : List Host.Cell} (h : cellLookup a cs = some b) : (a, b) ∈ cs := by
  induction cs with
  | nil => simp [cellLookup] at h
  | cons c rest ih =>
    obtain ⟨a', b'⟩ := c
    simp only [cellLookup] at h
    split at h
    · rename_i heq
      cases h
      simp [heq]
    · exact List.mem_cons_of_mem _ (ih h)

theorem Memory.listed_ne_unlisted {m : Memory} (h : m.wf = true) {a : Nat} {b : Byte}
    (hl : cellLookup a m.cells = some b) : b ≠ m.unlisted a := by
  simp only [Memory.wf, Bool.and_eq_true, List.all_eq_true] at h
  have := h.2 _ (cellLookup_mem hl)
  simp only [bne_iff_ne, ne_eq] at this
  exact this.2

theorem cellLookup_below {a lo : Nat} {cs : List Host.Cell} (h : cellsAbove lo cs = true) (hlt : a < lo) :
    cellLookup a cs = none := by
  induction cs generalizing lo with
  | nil => rfl
  | cons c rest ih =>
    simp only [cellsAbove, Bool.and_eq_true, decide_eq_true_eq] at h
    have hne : c.1 ≠ a := by omega
    simp [cellLookup, hne, ih h.2 (by omega)]

theorem cells_ext {lo : Nat} {cs ds : List Host.Cell} (hc : cellsAbove lo cs = true) (hd : cellsAbove lo ds = true)
    (h : ∀ a, cellLookup a cs = cellLookup a ds) : cs = ds := by
  induction cs generalizing lo ds with
  | nil =>
    cases ds with
    | nil => rfl
    | cons d ds => have := h d.1; simp [cellLookup] at this
  | cons c cs ih =>
    cases ds with
    | nil => have := h c.1; simp [cellLookup] at this
    | cons d ds =>
      obtain ⟨a, b⟩ := c
      obtain ⟨a', b'⟩ := d
      simp only [cellsAbove, Bool.and_eq_true, decide_eq_true_eq] at hc hd
      have haa : a = a' := by
        have h1 := h a
        have h2 := h a'
        simp only [cellLookup] at h1 h2
        by_cases hlt : a < a'
        · simp [show a' ≠ a by omega, cellLookup_below hd.2 (show a < a' + 1 by omega)] at h1
        · by_cases hgt : a' < a
          · simp [show a ≠ a' by omega, cellLookup_below hc.2 (show a' < a + 1 by omega)] at h2
          · omega
      subst haa
      have hb : b = b' := by have := h a; simpa [cellLookup] using this
      subst hb
      refine congrArg _ (ih hc.2 hd.2 fun k => ?_)
      have hk := h k
      simp only [cellLookup] at hk
      by_cases hka : a = k
      · subst hka
        rw [cellLookup_below hc.2 (by omega), cellLookup_below hd.2 (by omega)]
      · simpa [hka] using hk

/-- Equal memories are equal data: two memories in canonical form over one FONT that read alike are the same. -/
theorem Memory.ext_of_read {m m' : Memory} (h : m.wf = true) (h' : m'.wf = true) (hf : m.font = m'.font)
    (hr : ∀ a, m.read a = m'.read a) : m = m' := by
  have hu : ∀ a, m.unlisted a = m'.unlisted a := by intro a; simp [Memory.unlisted, hf]
  have hcells : m.cells = m'.cells := by
    refine cells_ext (Memory.wf_sorted h) (Memory.wf_sorted h') fun a => ?_
    have hra := hr a
    simp only [Memory.read, hu] at hra
    cases h1 : cellLookup a m.cells with
    | none =>
      cases h2 : cellLookup a m'.cells with
      | none => rfl
      | some b' =>
        have := Memory.listed_ne_unlisted h' h2
        simp [h1, h2] at hra
        exact absurd hra.symm this
    | some b =>
      cases h2 : cellLookup a m'.cells with
      | none =>
        have := Memory.listed_ne_unlisted h h1
        simp [h1, h2] at hra
        exact absurd (hra.trans (hu a).symm) this
      | some b' => simpa [h1, h2] using hra
  cases m
  cases m'
  simp_all

/-! ### Block operations -/

/-- Bytes inside the address space: the block read gives them in order. -/
theorem readBlock_inside (m : Memory) (a k : Nat) (h : a + k ≤ 0x1000) :
    readBlock m a k = .ok ((List.range k).map fun j => m.read (a + j)) := by
  induction k generalizing a with
  | zero => rfl
  | succ k ih =>
    have hr : memRead m a = .ok (m.read a) := by simp [memRead]; omega
    simp only [readBlock, hr, ih (a + 1) (by omega), List.range_succ_eq_map, List.map_cons, List.map_map,
      Except.ok.injEq, List.cons.injEq, Nat.add_zero, true_and]
    exact List.map_congr_left fun j _ => by simp [Nat.add_comm, Nat.add_left_comm]

/-- A block that leaves the address space raises DataOOB at its first address outside. -/
theorem readBlock_outside (m : Memory) (a k : Nat) (h : 0x1000 < a + k) (hk : 1 ≤ k) :
    readBlock m a k = .error (max a 0x1000) := by
  induction k generalizing a with
  | zero => omega
  | succ k ih =>
    by_cases ha : a ≤ 0xFFF
    · have hr : memRead m a = .ok (m.read a) := by simp [memRead, ha]
      simp only [readBlock, hr, ih (a + 1) (by omega) (by omega)]
      congr 1
      omega
    · have hr : memRead m a = .error a := by simp [memRead, ha]
      simp only [readBlock, hr]
      congr 1
      omega

/-- Inside the address space a block write is the plain copy. -/
theorem writeBlock_inside (m : Memory) (a : Nat) (bs : List Byte) (h : a + bs.length ≤ 0x1000) :
    writeBlock m a bs = .ok (copyBytes m a bs) := by
  induction bs generalizing m a with
  | nil => rfl
  | cons b bs ih =>
    simp only [List.length_cons] at h
    have hw : memWrite m a b = .ok (m.write a b) := by simp [memWrite]; omega
    simp only [writeBlock, hw, copyBytes, ih (m.write a b) (a + 1) (by omega)]

@[simp] theorem copyBytes_font (m : Memory) (a : Nat) (bs : List Byte) : (copyBytes m a bs).font = m.font := by
  induction bs generalizing m a with
  | nil => rfl
  | cons b bs ih => simp [copyBytes, ih]

/-- A copy keeps the canonical form. -/
theorem copyBytes_wf {m : Memory} (h : m.wf = true) (a : Nat) (bs : List Byte) (hl : a + bs.length ≤ 0x1000) :
    (copyBytes m a bs).wf = true := by
  induction bs generalizing m a with
  | nil => exact h
  | cons b bs ih =>
    simp only [List.length_cons] at hl
    exact ih (Memory.write_wf h b (by omega)) (a + 1) (by omega)

/-- A copy leaves every address outside it alone. -/
theorem read_copyBytes_outside (m : Memory) (a : Nat) (bs : List Byte) {a₂ : Nat}
    (h : a₂ < a ∨ a + bs.length ≤ a₂) : (copyBytes m a bs).read a₂ = m.read a₂ := by
  induction bs generalizing m a with
  | nil => rfl
  | cons b bs ih =>
    simp only [List.length_cons] at h
    rw [copyBytes, ih (m.write a b) (a + 1) (by omega), Memory.read_write_other m b (by omega)]

/-- A copy puts byte j at the j-th address. -/
theorem read_copyBytes_inside {m : Memory} (h : m.wf = true) (a : Nat) (bs : List Byte) (hl : a + bs.length ≤ 0x1000)
    (j : Nat) (hj : j < bs.length) : (copyBytes m a bs).read (a + j) = bs[j] := by
  induction bs generalizing m a j with
  | nil => simp at hj
  | cons b bs ih =>
    simp only [List.length_cons] at hl hj
    have hw := Memory.write_wf h b (show a ≤ 0xFFF by omega)
    cases j with
    | zero =>
      rw [copyBytes, read_copyBytes_outside (m.write a b) (a + 1) bs (by omega)]
      exact Memory.read_write_same h a b
    | succ j =>
      have := ih hw (a + 1) (by omega) j (by omega)
      rw [copyBytes, show a + (j + 1) = a + 1 + j by omega, this]
      rfl

/-- What every address reads as after a copy. -/
theorem read_copyBytes {m : Memory} (h : m.wf = true) (base : Nat) (bs : List Byte) (hl : base + bs.length ≤ 0x1000)
    (a : Nat) : (copyBytes m base bs).read a = m.over base bs a := by
  unfold Memory.over
  split
  · rename_i ha
    have := read_copyBytes_inside h base bs hl (a - base) ha.2
    rwa [Nat.add_sub_cancel' ha.1] at this
  · exact read_copyBytes_outside m base bs (by omega)

end Sys2Proof.Machine
end

