-- ==== Sys2Proof/Laws/State.lean ====
section
/-! SUPPORT. One lemma per field per update of State, true by rfl, so that no later proof unfolds a record update. -/

namespace Sys2Proof.Machine

variable (s : State)

/-! ### `setV` -/

@[simp] theorem State.setV_v (x : Nibble) (b : Byte) : (s.setV x b).v = s.v.set x.toNat b x.isLt := rfl
@[simp] theorem State.setV_i (x : Nibble) (b : Byte) : (s.setV x b).i = s.i := rfl
@[simp] theorem State.setV_pc (x : Nibble) (b : Byte) : (s.setV x b).pc = s.pc := rfl
@[simp] theorem State.setV_stack (x : Nibble) (b : Byte) : (s.setV x b).stack = s.stack := rfl
@[simp] theorem State.setV_sp (x : Nibble) (b : Byte) : (s.setV x b).sp = s.sp := rfl
@[simp] theorem State.setV_dt (x : Nibble) (b : Byte) : (s.setV x b).dt = s.dt := rfl
@[simp] theorem State.setV_st (x : Nibble) (b : Byte) : (s.setV x b).st = s.st := rfl
@[simp] theorem State.setV_mem (x : Nibble) (b : Byte) : (s.setV x b).mem = s.mem := rfl
@[simp] theorem State.setV_fb (x : Nibble) (b : Byte) : (s.setV x b).fb = s.fb := rfl
@[simp] theorem State.setV_redraw (x : Nibble) (b : Byte) : (s.setV x b).redraw = s.redraw := rfl
@[simp] theorem State.setV_keys (x : Nibble) (b : Byte) : (s.setV x b).keys = s.keys := rfl
@[simp] theorem State.setV_faultCause (x : Nibble) (b : Byte) : (s.setV x b).faultCause = s.faultCause := rfl
@[simp] theorem State.setV_faultPc (x : Nibble) (b : Byte) : (s.setV x b).faultPc = s.faultPc := rfl
@[simp] theorem State.setV_faultOpcode (x : Nibble) (b : Byte) : (s.setV x b).faultOpcode = s.faultOpcode := rfl
@[simp] theorem State.setV_faultInfo (x : Nibble) (b : Byte) : (s.setV x b).faultInfo = s.faultInfo := rfl
@[simp] theorem State.setV_rand (x : Nibble) (b : Byte) : (s.setV x b).rand = s.rand := rfl
@[simp] theorem State.setV_inputs (x : Nibble) (b : Byte) : (s.setV x b).inputs = s.inputs := rfl
@[simp] theorem State.setV_events (x : Nibble) (b : Byte) : (s.setV x b).events = s.events := rfl

/-! ### `setVF` -/

@[simp] theorem State.setVF_v (b : Byte) : (s.setVF b).v = s.v.set 15 b := rfl
@[simp] theorem State.setVF_i (b : Byte) : (s.setVF b).i = s.i := rfl
@[simp] theorem State.setVF_pc (b : Byte) : (s.setVF b).pc = s.pc := rfl
@[simp] theorem State.setVF_stack (b : Byte) : (s.setVF b).stack = s.stack := rfl
@[simp] theorem State.setVF_sp (b : Byte) : (s.setVF b).sp = s.sp := rfl
@[simp] theorem State.setVF_dt (b : Byte) : (s.setVF b).dt = s.dt := rfl
@[simp] theorem State.setVF_st (b : Byte) : (s.setVF b).st = s.st := rfl
@[simp] theorem State.setVF_mem (b : Byte) : (s.setVF b).mem = s.mem := rfl
@[simp] theorem State.setVF_fb (b : Byte) : (s.setVF b).fb = s.fb := rfl
@[simp] theorem State.setVF_redraw (b : Byte) : (s.setVF b).redraw = s.redraw := rfl
@[simp] theorem State.setVF_keys (b : Byte) : (s.setVF b).keys = s.keys := rfl
@[simp] theorem State.setVF_faultCause (b : Byte) : (s.setVF b).faultCause = s.faultCause := rfl
@[simp] theorem State.setVF_faultPc (b : Byte) : (s.setVF b).faultPc = s.faultPc := rfl
@[simp] theorem State.setVF_faultOpcode (b : Byte) : (s.setVF b).faultOpcode = s.faultOpcode := rfl
@[simp] theorem State.setVF_faultInfo (b : Byte) : (s.setVF b).faultInfo = s.faultInfo := rfl
@[simp] theorem State.setVF_rand (b : Byte) : (s.setVF b).rand = s.rand := rfl
@[simp] theorem State.setVF_inputs (b : Byte) : (s.setVF b).inputs = s.inputs := rfl
@[simp] theorem State.setVF_events (b : Byte) : (s.setVF b).events = s.events := rfl

/-! ### `setI` -/

@[simp] theorem State.setI_v (w : Word) : (s.setI w).v = s.v := rfl
@[simp] theorem State.setI_i (w : Word) : (s.setI w).i = w := rfl
@[simp] theorem State.setI_pc (w : Word) : (s.setI w).pc = s.pc := rfl
@[simp] theorem State.setI_stack (w : Word) : (s.setI w).stack = s.stack := rfl
@[simp] theorem State.setI_sp (w : Word) : (s.setI w).sp = s.sp := rfl
@[simp] theorem State.setI_dt (w : Word) : (s.setI w).dt = s.dt := rfl
@[simp] theorem State.setI_st (w : Word) : (s.setI w).st = s.st := rfl
@[simp] theorem State.setI_mem (w : Word) : (s.setI w).mem = s.mem := rfl
@[simp] theorem State.setI_fb (w : Word) : (s.setI w).fb = s.fb := rfl
@[simp] theorem State.setI_redraw (w : Word) : (s.setI w).redraw = s.redraw := rfl
@[simp] theorem State.setI_keys (w : Word) : (s.setI w).keys = s.keys := rfl
@[simp] theorem State.setI_faultCause (w : Word) : (s.setI w).faultCause = s.faultCause := rfl
@[simp] theorem State.setI_faultPc (w : Word) : (s.setI w).faultPc = s.faultPc := rfl
@[simp] theorem State.setI_faultOpcode (w : Word) : (s.setI w).faultOpcode = s.faultOpcode := rfl
@[simp] theorem State.setI_faultInfo (w : Word) : (s.setI w).faultInfo = s.faultInfo := rfl
@[simp] theorem State.setI_rand (w : Word) : (s.setI w).rand = s.rand := rfl
@[simp] theorem State.setI_inputs (w : Word) : (s.setI w).inputs = s.inputs := rfl
@[simp] theorem State.setI_events (w : Word) : (s.setI w).events = s.events := rfl

/-! ### `setPc` -/

@[simp] theorem State.setPc_v (w : Word) : (s.setPc w).v = s.v := rfl
@[simp] theorem State.setPc_i (w : Word) : (s.setPc w).i = s.i := rfl
@[simp] theorem State.setPc_pc (w : Word) : (s.setPc w).pc = w := rfl
@[simp] theorem State.setPc_stack (w : Word) : (s.setPc w).stack = s.stack := rfl
@[simp] theorem State.setPc_sp (w : Word) : (s.setPc w).sp = s.sp := rfl
@[simp] theorem State.setPc_dt (w : Word) : (s.setPc w).dt = s.dt := rfl
@[simp] theorem State.setPc_st (w : Word) : (s.setPc w).st = s.st := rfl
@[simp] theorem State.setPc_mem (w : Word) : (s.setPc w).mem = s.mem := rfl
@[simp] theorem State.setPc_fb (w : Word) : (s.setPc w).fb = s.fb := rfl
@[simp] theorem State.setPc_redraw (w : Word) : (s.setPc w).redraw = s.redraw := rfl
@[simp] theorem State.setPc_keys (w : Word) : (s.setPc w).keys = s.keys := rfl
@[simp] theorem State.setPc_faultCause (w : Word) : (s.setPc w).faultCause = s.faultCause := rfl
@[simp] theorem State.setPc_faultPc (w : Word) : (s.setPc w).faultPc = s.faultPc := rfl
@[simp] theorem State.setPc_faultOpcode (w : Word) : (s.setPc w).faultOpcode = s.faultOpcode := rfl
@[simp] theorem State.setPc_faultInfo (w : Word) : (s.setPc w).faultInfo = s.faultInfo := rfl
@[simp] theorem State.setPc_rand (w : Word) : (s.setPc w).rand = s.rand := rfl
@[simp] theorem State.setPc_inputs (w : Word) : (s.setPc w).inputs = s.inputs := rfl
@[simp] theorem State.setPc_events (w : Word) : (s.setPc w).events = s.events := rfl

/-! ### `advance` -/

@[simp] theorem State.advance_v : (s.advance).v = s.v := rfl
@[simp] theorem State.advance_i : (s.advance).i = s.i := rfl
@[simp] theorem State.advance_pc : (s.advance).pc = s.pc + 2 := rfl
@[simp] theorem State.advance_stack : (s.advance).stack = s.stack := rfl
@[simp] theorem State.advance_sp : (s.advance).sp = s.sp := rfl
@[simp] theorem State.advance_dt : (s.advance).dt = s.dt := rfl
@[simp] theorem State.advance_st : (s.advance).st = s.st := rfl
@[simp] theorem State.advance_mem : (s.advance).mem = s.mem := rfl
@[simp] theorem State.advance_fb : (s.advance).fb = s.fb := rfl
@[simp] theorem State.advance_redraw : (s.advance).redraw = s.redraw := rfl
@[simp] theorem State.advance_keys : (s.advance).keys = s.keys := rfl
@[simp] theorem State.advance_faultCause : (s.advance).faultCause = s.faultCause := rfl
@[simp] theorem State.advance_faultPc : (s.advance).faultPc = s.faultPc := rfl
@[simp] theorem State.advance_faultOpcode : (s.advance).faultOpcode = s.faultOpcode := rfl
@[simp] theorem State.advance_faultInfo : (s.advance).faultInfo = s.faultInfo := rfl
@[simp] theorem State.advance_rand : (s.advance).rand = s.rand := rfl
@[simp] theorem State.advance_inputs : (s.advance).inputs = s.inputs := rfl
@[simp] theorem State.advance_events : (s.advance).events = s.events := rfl

/-! ### `skipIf` -/

@[simp] theorem State.skipIf_v (c : Bool) : (s.skipIf c).v = s.v := rfl
@[simp] theorem State.skipIf_i (c : Bool) : (s.skipIf c).i = s.i := rfl
@[simp] theorem State.skipIf_pc (c : Bool) : (s.skipIf c).pc = if c then s.pc + 4 else s.pc + 2 := rfl
@[simp] theorem State.skipIf_stack (c : Bool) : (s.skipIf c).stack = s.stack := rfl
@[simp] theorem State.skipIf_sp (c : Bool) : (s.skipIf c).sp = s.sp := rfl
@[simp] theorem State.skipIf_dt (c : Bool) : (s.skipIf c).dt = s.dt := rfl
@[simp] theorem State.skipIf_st (c : Bool) : (s.skipIf c).st = s.st := rfl
@[simp] theorem State.skipIf_mem (c : Bool) : (s.skipIf c).mem = s.mem := rfl
@[simp] theorem State.skipIf_fb (c : Bool) : (s.skipIf c).fb = s.fb := rfl
@[simp] theorem State.skipIf_redraw (c : Bool) : (s.skipIf c).redraw = s.redraw := rfl
@[simp] theorem State.skipIf_keys (c : Bool) : (s.skipIf c).keys = s.keys := rfl
@[simp] theorem State.skipIf_faultCause (c : Bool) : (s.skipIf c).faultCause = s.faultCause := rfl
@[simp] theorem State.skipIf_faultPc (c : Bool) : (s.skipIf c).faultPc = s.faultPc := rfl
@[simp] theorem State.skipIf_faultOpcode (c : Bool) : (s.skipIf c).faultOpcode = s.faultOpcode := rfl
@[simp] theorem State.skipIf_faultInfo (c : Bool) : (s.skipIf c).faultInfo = s.faultInfo := rfl
@[simp] theorem State.skipIf_rand (c : Bool) : (s.skipIf c).rand = s.rand := rfl
@[simp] theorem State.skipIf_inputs (c : Bool) : (s.skipIf c).inputs = s.inputs := rfl
@[simp] theorem State.skipIf_events (c : Bool) : (s.skipIf c).events = s.events := rfl

/-! ### `setDt` -/

@[simp] theorem State.setDt_v (b : Byte) : (s.setDt b).v = s.v := rfl
@[simp] theorem State.setDt_i (b : Byte) : (s.setDt b).i = s.i := rfl
@[simp] theorem State.setDt_pc (b : Byte) : (s.setDt b).pc = s.pc := rfl
@[simp] theorem State.setDt_stack (b : Byte) : (s.setDt b).stack = s.stack := rfl
@[simp] theorem State.setDt_sp (b : Byte) : (s.setDt b).sp = s.sp := rfl
@[simp] theorem State.setDt_dt (b : Byte) : (s.setDt b).dt = b := rfl
@[simp] theorem State.setDt_st (b : Byte) : (s.setDt b).st = s.st := rfl
@[simp] theorem State.setDt_mem (b : Byte) : (s.setDt b).mem = s.mem := rfl
@[simp] theorem State.setDt_fb (b : Byte) : (s.setDt b).fb = s.fb := rfl
@[simp] theorem State.setDt_redraw (b : Byte) : (s.setDt b).redraw = s.redraw := rfl
@[simp] theorem State.setDt_keys (b : Byte) : (s.setDt b).keys = s.keys := rfl
@[simp] theorem State.setDt_faultCause (b : Byte) : (s.setDt b).faultCause = s.faultCause := rfl
@[simp] theorem State.setDt_faultPc (b : Byte) : (s.setDt b).faultPc = s.faultPc := rfl
@[simp] theorem State.setDt_faultOpcode (b : Byte) : (s.setDt b).faultOpcode = s.faultOpcode := rfl
@[simp] theorem State.setDt_faultInfo (b : Byte) : (s.setDt b).faultInfo = s.faultInfo := rfl
@[simp] theorem State.setDt_rand (b : Byte) : (s.setDt b).rand = s.rand := rfl
@[simp] theorem State.setDt_inputs (b : Byte) : (s.setDt b).inputs = s.inputs := rfl
@[simp] theorem State.setDt_events (b : Byte) : (s.setDt b).events = s.events := rfl

/-! ### `setSt` -/

@[simp] theorem State.setSt_v (b : Byte) : (s.setSt b).v = s.v := rfl
@[simp] theorem State.setSt_i (b : Byte) : (s.setSt b).i = s.i := rfl
@[simp] theorem State.setSt_pc (b : Byte) : (s.setSt b).pc = s.pc := rfl
@[simp] theorem State.setSt_stack (b : Byte) : (s.setSt b).stack = s.stack := rfl
@[simp] theorem State.setSt_sp (b : Byte) : (s.setSt b).sp = s.sp := rfl
@[simp] theorem State.setSt_dt (b : Byte) : (s.setSt b).dt = s.dt := rfl
@[simp] theorem State.setSt_st (b : Byte) : (s.setSt b).st = b := rfl
@[simp] theorem State.setSt_mem (b : Byte) : (s.setSt b).mem = s.mem := rfl
@[simp] theorem State.setSt_fb (b : Byte) : (s.setSt b).fb = s.fb := rfl
@[simp] theorem State.setSt_redraw (b : Byte) : (s.setSt b).redraw = s.redraw := rfl
@[simp] theorem State.setSt_keys (b : Byte) : (s.setSt b).keys = s.keys := rfl
@[simp] theorem State.setSt_faultCause (b : Byte) : (s.setSt b).faultCause = s.faultCause := rfl
@[simp] theorem State.setSt_faultPc (b : Byte) : (s.setSt b).faultPc = s.faultPc := rfl
@[simp] theorem State.setSt_faultOpcode (b : Byte) : (s.setSt b).faultOpcode = s.faultOpcode := rfl
@[simp] theorem State.setSt_faultInfo (b : Byte) : (s.setSt b).faultInfo = s.faultInfo := rfl
@[simp] theorem State.setSt_rand (b : Byte) : (s.setSt b).rand = s.rand := rfl
@[simp] theorem State.setSt_inputs (b : Byte) : (s.setSt b).inputs = s.inputs := rfl
@[simp] theorem State.setSt_events (b : Byte) : (s.setSt b).events = s.events := rfl

/-! ### `setMem` -/

@[simp] theorem State.setMem_v (m : Memory) : (s.setMem m).v = s.v := rfl
@[simp] theorem State.setMem_i (m : Memory) : (s.setMem m).i = s.i := rfl
@[simp] theorem State.setMem_pc (m : Memory) : (s.setMem m).pc = s.pc := rfl
@[simp] theorem State.setMem_stack (m : Memory) : (s.setMem m).stack = s.stack := rfl
@[simp] theorem State.setMem_sp (m : Memory) : (s.setMem m).sp = s.sp := rfl
@[simp] theorem State.setMem_dt (m : Memory) : (s.setMem m).dt = s.dt := rfl
@[simp] theorem State.setMem_st (m : Memory) : (s.setMem m).st = s.st := rfl
@[simp] theorem State.setMem_mem (m : Memory) : (s.setMem m).mem = m := rfl
@[simp] theorem State.setMem_fb (m : Memory) : (s.setMem m).fb = s.fb := rfl
@[simp] theorem State.setMem_redraw (m : Memory) : (s.setMem m).redraw = s.redraw := rfl
@[simp] theorem State.setMem_keys (m : Memory) : (s.setMem m).keys = s.keys := rfl
@[simp] theorem State.setMem_faultCause (m : Memory) : (s.setMem m).faultCause = s.faultCause := rfl
@[simp] theorem State.setMem_faultPc (m : Memory) : (s.setMem m).faultPc = s.faultPc := rfl
@[simp] theorem State.setMem_faultOpcode (m : Memory) : (s.setMem m).faultOpcode = s.faultOpcode := rfl
@[simp] theorem State.setMem_faultInfo (m : Memory) : (s.setMem m).faultInfo = s.faultInfo := rfl
@[simp] theorem State.setMem_rand (m : Memory) : (s.setMem m).rand = s.rand := rfl
@[simp] theorem State.setMem_inputs (m : Memory) : (s.setMem m).inputs = s.inputs := rfl
@[simp] theorem State.setMem_events (m : Memory) : (s.setMem m).events = s.events := rfl

/-! ### `show` -/

@[simp] theorem State.show_v (f : Frame) : (s.show f).v = s.v := rfl
@[simp] theorem State.show_i (f : Frame) : (s.show f).i = s.i := rfl
@[simp] theorem State.show_pc (f : Frame) : (s.show f).pc = s.pc := rfl
@[simp] theorem State.show_stack (f : Frame) : (s.show f).stack = s.stack := rfl
@[simp] theorem State.show_sp (f : Frame) : (s.show f).sp = s.sp := rfl
@[simp] theorem State.show_dt (f : Frame) : (s.show f).dt = s.dt := rfl
@[simp] theorem State.show_st (f : Frame) : (s.show f).st = s.st := rfl
@[simp] theorem State.show_mem (f : Frame) : (s.show f).mem = s.mem := rfl
@[simp] theorem State.show_fb (f : Frame) : (s.show f).fb = f := rfl
@[simp] theorem State.show_redraw (f : Frame) : (s.show f).redraw = true := rfl
@[simp] theorem State.show_keys (f : Frame) : (s.show f).keys = s.keys := rfl
@[simp] theorem State.show_faultCause (f : Frame) : (s.show f).faultCause = s.faultCause := rfl
@[simp] theorem State.show_faultPc (f : Frame) : (s.show f).faultPc = s.faultPc := rfl
@[simp] theorem State.show_faultOpcode (f : Frame) : (s.show f).faultOpcode = s.faultOpcode := rfl
@[simp] theorem State.show_faultInfo (f : Frame) : (s.show f).faultInfo = s.faultInfo := rfl
@[simp] theorem State.show_rand (f : Frame) : (s.show f).rand = s.rand := rfl
@[simp] theorem State.show_inputs (f : Frame) : (s.show f).inputs = s.inputs := rfl
@[simp] theorem State.show_events (f : Frame) : (s.show f).events = s.events := rfl

/-! ### `emit` -/

@[simp] theorem State.emit_v (e : Event) : (s.emit e).v = s.v := rfl
@[simp] theorem State.emit_i (e : Event) : (s.emit e).i = s.i := rfl
@[simp] theorem State.emit_pc (e : Event) : (s.emit e).pc = s.pc := rfl
@[simp] theorem State.emit_stack (e : Event) : (s.emit e).stack = s.stack := rfl
@[simp] theorem State.emit_sp (e : Event) : (s.emit e).sp = s.sp := rfl
@[simp] theorem State.emit_dt (e : Event) : (s.emit e).dt = s.dt := rfl
@[simp] theorem State.emit_st (e : Event) : (s.emit e).st = s.st := rfl
@[simp] theorem State.emit_mem (e : Event) : (s.emit e).mem = s.mem := rfl
@[simp] theorem State.emit_fb (e : Event) : (s.emit e).fb = s.fb := rfl
@[simp] theorem State.emit_redraw (e : Event) : (s.emit e).redraw = s.redraw := rfl
@[simp] theorem State.emit_keys (e : Event) : (s.emit e).keys = s.keys := rfl
@[simp] theorem State.emit_faultCause (e : Event) : (s.emit e).faultCause = s.faultCause := rfl
@[simp] theorem State.emit_faultPc (e : Event) : (s.emit e).faultPc = s.faultPc := rfl
@[simp] theorem State.emit_faultOpcode (e : Event) : (s.emit e).faultOpcode = s.faultOpcode := rfl
@[simp] theorem State.emit_faultInfo (e : Event) : (s.emit e).faultInfo = s.faultInfo := rfl
@[simp] theorem State.emit_rand (e : Event) : (s.emit e).rand = s.rand := rfl
@[simp] theorem State.emit_inputs (e : Event) : (s.emit e).inputs = s.inputs := rfl
@[simp] theorem State.emit_events (e : Event) : (s.emit e).events = s.events ++ [e] := rfl

/-! ### `raise` -/

@[simp] theorem State.raise_v (c : FaultCause) (o n : Word) : (s.raise c o n).v = s.v := rfl
@[simp] theorem State.raise_i (c : FaultCause) (o n : Word) : (s.raise c o n).i = s.i := rfl
@[simp] theorem State.raise_pc (c : FaultCause) (o n : Word) : (s.raise c o n).pc = s.pc := rfl
@[simp] theorem State.raise_stack (c : FaultCause) (o n : Word) : (s.raise c o n).stack = s.stack := rfl
@[simp] theorem State.raise_sp (c : FaultCause) (o n : Word) : (s.raise c o n).sp = s.sp := rfl
@[simp] theorem State.raise_dt (c : FaultCause) (o n : Word) : (s.raise c o n).dt = s.dt := rfl
@[simp] theorem State.raise_st (c : FaultCause) (o n : Word) : (s.raise c o n).st = s.st := rfl
@[simp] theorem State.raise_mem (c : FaultCause) (o n : Word) : (s.raise c o n).mem = s.mem := rfl
@[simp] theorem State.raise_fb (c : FaultCause) (o n : Word) : (s.raise c o n).fb = s.fb := rfl
@[simp] theorem State.raise_redraw (c : FaultCause) (o n : Word) : (s.raise c o n).redraw = s.redraw := rfl
@[simp] theorem State.raise_keys (c : FaultCause) (o n : Word) : (s.raise c o n).keys = s.keys := rfl
@[simp] theorem State.raise_faultCause (c : FaultCause) (o n : Word) : (s.raise c o n).faultCause = c := rfl
@[simp] theorem State.raise_faultPc (c : FaultCause) (o n : Word) : (s.raise c o n).faultPc = s.pc := rfl
@[simp] theorem State.raise_faultOpcode (c : FaultCause) (o n : Word) : (s.raise c o n).faultOpcode = o := rfl
@[simp] theorem State.raise_faultInfo (c : FaultCause) (o n : Word) : (s.raise c o n).faultInfo = n := rfl
@[simp] theorem State.raise_rand (c : FaultCause) (o n : Word) : (s.raise c o n).rand = s.rand := rfl
@[simp] theorem State.raise_inputs (c : FaultCause) (o n : Word) : (s.raise c o n).inputs = s.inputs := rfl
@[simp] theorem State.raise_events (c : FaultCause) (o n : Word) : (s.raise c o n).events = s.events ++ [.fault c s.pc n] := rfl

/-! ### `timerStep` -/

@[simp] theorem State.timerStep_v : (s.timerStep).v = s.v := rfl
@[simp] theorem State.timerStep_i : (s.timerStep).i = s.i := rfl
@[simp] theorem State.timerStep_pc : (s.timerStep).pc = s.pc := rfl
@[simp] theorem State.timerStep_stack : (s.timerStep).stack = s.stack := rfl
@[simp] theorem State.timerStep_sp : (s.timerStep).sp = s.sp := rfl
@[simp] theorem State.timerStep_dt : (s.timerStep).dt = countDown s.dt := rfl
@[simp] theorem State.timerStep_st : (s.timerStep).st = countDown s.st := rfl
@[simp] theorem State.timerStep_mem : (s.timerStep).mem = s.mem := rfl
@[simp] theorem State.timerStep_fb : (s.timerStep).fb = s.fb := rfl
@[simp] theorem State.timerStep_redraw : (s.timerStep).redraw = s.redraw := rfl
@[simp] theorem State.timerStep_keys : (s.timerStep).keys = s.keys := rfl
@[simp] theorem State.timerStep_faultCause : (s.timerStep).faultCause = s.faultCause := rfl
@[simp] theorem State.timerStep_faultPc : (s.timerStep).faultPc = s.faultPc := rfl
@[simp] theorem State.timerStep_faultOpcode : (s.timerStep).faultOpcode = s.faultOpcode := rfl
@[simp] theorem State.timerStep_faultInfo : (s.timerStep).faultInfo = s.faultInfo := rfl
@[simp] theorem State.timerStep_rand : (s.timerStep).rand = s.rand := rfl
@[simp] theorem State.timerStep_inputs : (s.timerStep).inputs = s.inputs := rfl
@[simp] theorem State.timerStep_events : (s.timerStep).events = if s.st = 1 then s.events ++ [.beep] else s.events := rfl

/-! ### `beginCycle` -/

@[simp] theorem State.beginCycle_v (r : Byte) : (s.beginCycle r).v = s.v := rfl
@[simp] theorem State.beginCycle_i (r : Byte) : (s.beginCycle r).i = s.i := rfl
@[simp] theorem State.beginCycle_pc (r : Byte) : (s.beginCycle r).pc = s.pc := rfl
@[simp] theorem State.beginCycle_stack (r : Byte) : (s.beginCycle r).stack = s.stack := rfl
@[simp] theorem State.beginCycle_sp (r : Byte) : (s.beginCycle r).sp = s.sp := rfl
@[simp] theorem State.beginCycle_dt (r : Byte) : (s.beginCycle r).dt = s.dt := rfl
@[simp] theorem State.beginCycle_st (r : Byte) : (s.beginCycle r).st = s.st := rfl
@[simp] theorem State.beginCycle_mem (r : Byte) : (s.beginCycle r).mem = s.mem := rfl
@[simp] theorem State.beginCycle_fb (r : Byte) : (s.beginCycle r).fb = s.fb := rfl
@[simp] theorem State.beginCycle_redraw (r : Byte) : (s.beginCycle r).redraw = s.redraw := rfl
@[simp] theorem State.beginCycle_keys (r : Byte) : (s.beginCycle r).keys = s.keys := rfl
@[simp] theorem State.beginCycle_faultCause (r : Byte) : (s.beginCycle r).faultCause = s.faultCause := rfl
@[simp] theorem State.beginCycle_faultPc (r : Byte) : (s.beginCycle r).faultPc = s.faultPc := rfl
@[simp] theorem State.beginCycle_faultOpcode (r : Byte) : (s.beginCycle r).faultOpcode = s.faultOpcode := rfl
@[simp] theorem State.beginCycle_faultInfo (r : Byte) : (s.beginCycle r).faultInfo = s.faultInfo := rfl
@[simp] theorem State.beginCycle_rand (r : Byte) : (s.beginCycle r).rand = r := rfl
@[simp] theorem State.beginCycle_inputs (r : Byte) : (s.beginCycle r).inputs = s.inputs := rfl
@[simp] theorem State.beginCycle_events (r : Byte) : (s.beginCycle r).events = [] := rfl

/-! ### `illegal` -/

@[simp] theorem State.illegal_v (o : Word) : (s.illegal o).v = s.v := rfl
@[simp] theorem State.illegal_i (o : Word) : (s.illegal o).i = s.i := rfl
@[simp] theorem State.illegal_pc (o : Word) : (s.illegal o).pc = s.pc := rfl
@[simp] theorem State.illegal_stack (o : Word) : (s.illegal o).stack = s.stack := rfl
@[simp] theorem State.illegal_sp (o : Word) : (s.illegal o).sp = s.sp := rfl
@[simp] theorem State.illegal_dt (o : Word) : (s.illegal o).dt = s.dt := rfl
@[simp] theorem State.illegal_st (o : Word) : (s.illegal o).st = s.st := rfl
@[simp] theorem State.illegal_mem (o : Word) : (s.illegal o).mem = s.mem := rfl
@[simp] theorem State.illegal_fb (o : Word) : (s.illegal o).fb = s.fb := rfl
@[simp] theorem State.illegal_redraw (o : Word) : (s.illegal o).redraw = s.redraw := rfl
@[simp] theorem State.illegal_keys (o : Word) : (s.illegal o).keys = s.keys := rfl
@[simp] theorem State.illegal_faultCause (o : Word) : (s.illegal o).faultCause = s.faultCause := rfl
@[simp] theorem State.illegal_faultPc (o : Word) : (s.illegal o).faultPc = s.faultPc := rfl
@[simp] theorem State.illegal_faultOpcode (o : Word) : (s.illegal o).faultOpcode = s.faultOpcode := rfl
@[simp] theorem State.illegal_faultInfo (o : Word) : (s.illegal o).faultInfo = s.faultInfo := rfl
@[simp] theorem State.illegal_rand (o : Word) : (s.illegal o).rand = s.rand := rfl
@[simp] theorem State.illegal_inputs (o : Word) : (s.illegal o).inputs = s.inputs := rfl
@[simp] theorem State.illegal_events (o : Word) : (s.illegal o).events = s.events ++ [.illegalOpcode s.pc o] := rfl

/-! ### `setKeys` -/

@[simp] theorem State.setKeys_v (k : BitVec 16) : (s.setKeys k).v = s.v := rfl
@[simp] theorem State.setKeys_i (k : BitVec 16) : (s.setKeys k).i = s.i := rfl
@[simp] theorem State.setKeys_pc (k : BitVec 16) : (s.setKeys k).pc = s.pc := rfl
@[simp] theorem State.setKeys_stack (k : BitVec 16) : (s.setKeys k).stack = s.stack := rfl
@[simp] theorem State.setKeys_sp (k : BitVec 16) : (s.setKeys k).sp = s.sp := rfl
@[simp] theorem State.setKeys_dt (k : BitVec 16) : (s.setKeys k).dt = s.dt := rfl
@[simp] theorem State.setKeys_st (k : BitVec 16) : (s.setKeys k).st = s.st := rfl
@[simp] theorem State.setKeys_mem (k : BitVec 16) : (s.setKeys k).mem = s.mem := rfl
@[simp] theorem State.setKeys_fb (k : BitVec 16) : (s.setKeys k).fb = s.fb := rfl
@[simp] theorem State.setKeys_redraw (k : BitVec 16) : (s.setKeys k).redraw = s.redraw := rfl
@[simp] theorem State.setKeys_keys (k : BitVec 16) : (s.setKeys k).keys = k := rfl
@[simp] theorem State.setKeys_faultCause (k : BitVec 16) : (s.setKeys k).faultCause = s.faultCause := rfl
@[simp] theorem State.setKeys_faultPc (k : BitVec 16) : (s.setKeys k).faultPc = s.faultPc := rfl
@[simp] theorem State.setKeys_faultOpcode (k : BitVec 16) : (s.setKeys k).faultOpcode = s.faultOpcode := rfl
@[simp] theorem State.setKeys_faultInfo (k : BitVec 16) : (s.setKeys k).faultInfo = s.faultInfo := rfl
@[simp] theorem State.setKeys_rand (k : BitVec 16) : (s.setKeys k).rand = s.rand := rfl
@[simp] theorem State.setKeys_inputs (k : BitVec 16) : (s.setKeys k).inputs = s.inputs := rfl
@[simp] theorem State.setKeys_events (k : BitVec 16) : (s.setKeys k).events = s.events := rfl

/-! ### `ackRedraw` -/

@[simp] theorem State.ackRedraw_v : (s.ackRedraw).v = s.v := rfl
@[simp] theorem State.ackRedraw_i : (s.ackRedraw).i = s.i := rfl
@[simp] theorem State.ackRedraw_pc : (s.ackRedraw).pc = s.pc := rfl
@[simp] theorem State.ackRedraw_stack : (s.ackRedraw).stack = s.stack := rfl
@[simp] theorem State.ackRedraw_sp : (s.ackRedraw).sp = s.sp := rfl
@[simp] theorem State.ackRedraw_dt : (s.ackRedraw).dt = s.dt := rfl
@[simp] theorem State.ackRedraw_st : (s.ackRedraw).st = s.st := rfl
@[simp] theorem State.ackRedraw_mem : (s.ackRedraw).mem = s.mem := rfl
@[simp] theorem State.ackRedraw_fb : (s.ackRedraw).fb = s.fb := rfl
@[simp] theorem State.ackRedraw_redraw : (s.ackRedraw).redraw = false := rfl
@[simp] theorem State.ackRedraw_keys : (s.ackRedraw).keys = s.keys := rfl
@[simp] theorem State.ackRedraw_faultCause : (s.ackRedraw).faultCause = s.faultCause := rfl
@[simp] theorem State.ackRedraw_faultPc : (s.ackRedraw).faultPc = s.faultPc := rfl
@[simp] theorem State.ackRedraw_faultOpcode : (s.ackRedraw).faultOpcode = s.faultOpcode := rfl
@[simp] theorem State.ackRedraw_faultInfo : (s.ackRedraw).faultInfo = s.faultInfo := rfl
@[simp] theorem State.ackRedraw_rand : (s.ackRedraw).rand = s.rand := rfl
@[simp] theorem State.ackRedraw_inputs : (s.ackRedraw).inputs = s.inputs := rfl
@[simp] theorem State.ackRedraw_events : (s.ackRedraw).events = s.events := rfl

end Sys2Proof.Machine
end

