-- ==== Sys2Proof/Laws/Ops.lean ====
section
/-! SUPPORT. For each shared operation, one lemma that says everything it can do. -/

namespace Sys2Proof.Machine

/-! ### Registers (spec/10_state.md R21) -/

@[simp] theorem readV_setV_same (s : State) (x : Nibble) (b : Byte) : (s.setV x b).readV x = b := by
  simp [State.readV, State.setV]

theorem readV_setV_other (s : State) {x r : Nibble} (b : Byte) (h : r ≠ x) : (s.setV x b).readV r = s.readV r := by
  have hn : x.toNat ≠ r.toNat := fun hx => h (BitVec.eq_of_toNat_eq hx.symm)
  simp only [State.readV, State.setV]
  exact Vector.getElem_set_ne x.isLt r.isLt hn

/-- Reading a register after a write. -/
theorem readV_setV (s : State) (x r : Nibble) (b : Byte) :
    (s.setV x b).readV r = if r = x then b else s.readV r := by
  by_cases h : r = x
  · simp [h]
  · simp [h, readV_setV_other s b h]

theorem readV_setVF (s : State) (r : Nibble) (b : Byte) : (s.setVF b).readV r = if r = 15#4 then b else s.readV r :=
  readV_setV s 15#4 r b

/-- A register reads through every update that leaves the register file alone. -/
theorem readV_congr {s t : State} (h : t.v = s.v) (r : Nibble) : t.readV r = s.readV r := by
  simp [State.readV, h]

@[simp] theorem readV_advance (s : State) (r : Nibble) : s.advance.readV r = s.readV r := rfl
@[simp] theorem readV_setPc (s : State) (w : Word) (r : Nibble) : (s.setPc w).readV r = s.readV r := rfl
@[simp] theorem readV_skipIf (s : State) (c : Bool) (r : Nibble) : (s.skipIf c).readV r = s.readV r := rfl
@[simp] theorem readV_setI (s : State) (w : Word) (r : Nibble) : (s.setI w).readV r = s.readV r := rfl
@[simp] theorem readV_setDt (s : State) (b : Byte) (r : Nibble) : (s.setDt b).readV r = s.readV r := rfl
@[simp] theorem readV_setSt (s : State) (b : Byte) (r : Nibble) : (s.setSt b).readV r = s.readV r := rfl
@[simp] theorem readV_setMem (s : State) (m : Memory) (r : Nibble) : (s.setMem m).readV r = s.readV r := rfl
@[simp] theorem readV_show (s : State) (f : Frame) (r : Nibble) : (s.show f).readV r = s.readV r := rfl
@[simp] theorem readV_emit (s : State) (e : Event) (r : Nibble) : (s.emit e).readV r = s.readV r := rfl
@[simp] theorem readV_raise (s : State) (c : FaultCause) (o n : Word) (r : Nibble) :
    (s.raise c o n).readV r = s.readV r := rfl
@[simp] theorem readV_timerStep (s : State) (r : Nibble) : s.timerStep.readV r = s.readV r := rfl
@[simp] theorem readV_beginCycle (s : State) (b : Byte) (r : Nibble) : (s.beginCycle b).readV r = s.readV r := rfl

/-- The bytes Fx55 stores are V[0] to V[k-1] in order. -/
theorem firstRegs_length (s : State) {k : Nat} (h : k ≤ 16) : (s.firstRegs k).length = k := by
  simp [State.firstRegs]; omega

theorem firstRegs_getElem (s : State) {k : Nat} (r : Nibble) (h : r.toNat < (s.firstRegs k).length) :
    (s.firstRegs k)[r.toNat] = s.readV r := by
  simp [State.firstRegs, State.readV]

/-- What a register of the filled file holds: the byte loaded for it, else what it held. -/
theorem fillRegs_getElem (v : Vector Byte 16) (j : Nat) (bs : List Byte) (r : Nat) (hr : r < 16) :
    (fillRegs v j bs)[r] = if h : j ≤ r ∧ r - j < bs.length then bs[r - j]'h.2 else v[r] := by
  induction bs generalizing v j with
  | nil => simp [fillRegs]
  | cons b bs ih =>
    rw [fillRegs, ih]
    by_cases h1 : j + 1 ≤ r ∧ r - (j + 1) < bs.length
    · have h2 : j ≤ r ∧ r - j < (b :: bs).length := by simp only [List.length_cons]; omega
      rw [dif_pos h1, dif_pos h2]
      have : r - j = (r - (j + 1)) + 1 := by omega
      simp [this]
    · rw [dif_neg h1]
      by_cases hj : j = r
      · subst hj
        simp
      · have h2 : ¬ (j ≤ r ∧ r - j < (b :: bs).length) := by simp only [List.length_cons]; omega
        rw [dif_neg h2]
        exact Vector.getElem_setIfInBounds_ne hr hj

/-! ### The call stack (spec/10_state.md R30) -/

theorem push_room (s : State) (h : s.sp.val < 16) :
    s.push = some { s with stack := s.stack.set s.sp.val s.pc h, sp := ⟨s.sp.val + 1, Nat.succ_lt_succ h⟩ } := by
  simp [State.push, h]

theorem push_full (s : State) (h : s.sp.val = 16) : s.push = none := by simp [State.push, h]

theorem pop_entry (s : State) (h : 0 < s.sp.val) :
    s.pop = some (s.stack[s.sp.val - 1]'(by have := s.sp.isLt; omega),
      { s with sp := ⟨s.sp.val - 1, by have := s.sp.isLt; omega⟩ }) := by
  simp [State.pop, h]

theorem pop_empty (s : State) (h : s.sp.val = 0) : s.pop = none := by simp [State.pop, h]

/-! ### Through I (spec/43_index_memory.md R185) -/

theorem rangeFault_inside (i : Word) (k : Nat) (h : k = 0 ∨ i.toNat + k ≤ 0x1000) : rangeFault i k = none := by
  simp only [rangeFault]; rw [if_neg]; omega

theorem rangeFault_outside (i : Word) (k : Nat) (hk : 1 ≤ k) (h : 0x1000 < i.toNat + k) :
    rangeFault i k = some (max i.toNat 0x1000) := by
  simp only [rangeFault]; rw [if_pos]; omega

/-- A load through I goes on with the bytes from I on, or raises DataOOB. -/
theorem loadThroughI_eq (s : State) (o : Word) (k : Nat) (body : List Byte → Answer) :
    s.loadThroughI o k body =
      if k = 0 ∨ s.i.toNat + k ≤ 0x1000 then body ((List.range k).map fun j => s.mem.read (s.i.toNat + j))
      else .next (s.raise .dataOob o (BitVec.ofNat 16 (max s.i.toNat 0x1000))) := by
  split
  · rename_i h
    have hr : readBlock s.mem s.i.toNat k = .ok ((List.range k).map fun j => s.mem.read (s.i.toNat + j)) := by
      rcases h with rfl | h
      · rfl
      · exact readBlock_inside _ _ _ h
    simp only [State.loadThroughI, rangeFault_inside s.i k h, hr]
  · rename_i h
    simp only [State.loadThroughI, rangeFault_outside s.i k (by omega) (by omega)]

/-- A store through I goes on with the bytes copied from I on, or raises DataOOB. -/
theorem storeThroughI_eq (s : State) (o : Word) (bs : List Byte) (body : State → Answer) (hne : 1 ≤ bs.length) :
    s.storeThroughI o bs body =
      if s.i.toNat + bs.length ≤ 0x1000 then body (s.setMem (copyBytes s.mem s.i.toNat bs))
      else .next (s.raise .dataOob o (BitVec.ofNat 16 (max s.i.toNat 0x1000))) := by
  split
  · rename_i h
    simp only [State.storeThroughI, rangeFault_inside s.i _ (.inr h), writeBlock_inside _ _ _ h]
  · rename_i h
    simp only [State.storeThroughI, rangeFault_outside s.i _ hne (by omega)]

/-! ### Keys (spec/44_keys_timers.md) -/

theorem highestKey_scan (keys : BitVec 16) (n : Nat) :
    match (List.range n).foldl (fun found k => if keys.getLsbD k then some k else found) (none : Option Nat) with
    | some k => k < n ∧ keys.getLsbD k = true ∧ ∀ j, j < n → keys.getLsbD j = true → j ≤ k
    | none => ∀ j, j < n → keys.getLsbD j = false := by
  induction n with
  | zero => simp
  | succ n ih =>
    rw [List.range_succ, List.foldl_append, List.foldl_cons, List.foldl_nil]
    by_cases hk : keys.getLsbD n = true
    · rw [if_pos hk]
      exact ⟨Nat.lt_succ_self n, hk, fun j hj _ => Nat.le_of_lt_succ hj⟩
    · rw [if_neg hk]
      generalize (List.range n).foldl _ _ = r at ih
      cases r with
      | none =>
        intro j hj
        rcases Nat.lt_succ_iff_lt_or_eq.mp hj with hj | rfl
        · exact ih j hj
        · simpa using hk
      | some k =>
        refine ⟨Nat.lt_succ_of_lt ih.1, ih.2.1, fun j hj hb => ?_⟩
        rcases Nat.lt_succ_iff_lt_or_eq.mp hj with hj | rfl
        · exact ih.2.2 j hj hb
        · exact absurd hb hk

/-- The scan finds the highest pressed key (R203, decision D11). -/
theorem highestKey_some {keys : BitVec 16} {k : Nat} (h : highestKey keys = some k) :
    k < 16 ∧ keys.getLsbD k = true ∧ ∀ j, j < 16 → keys.getLsbD j = true → j ≤ k := by
  have := highestKey_scan keys 16
  rw [show (List.range 16).foldl _ _ = some k from h] at this
  exact this

/-- The scan finds no key exactly when all are released (R204). -/
theorem highestKey_none {keys : BitVec 16} : highestKey keys = none ↔ keys = 0 := by
  constructor
  · intro h
    have := highestKey_scan keys 16
    rw [show (List.range 16).foldl _ _ = none from h] at this
    apply BitVec.eq_of_getLsbD_eq
    intro j hj
    simpa using this j hj
  · rintro rfl; rfl

/-! ### Timers (spec/60_exceptions.md R235, R236) -/

theorem countDown_toNat (b : Byte) : (countDown b).toNat = b.toNat - 1 := by
  simp only [countDown]
  split
  · rename_i h; subst h; rfl
  · rename_i h
    have h0 : b.toNat ≠ 0 := fun hb => h (BitVec.eq_of_toNat_eq hb)
    have := b.isLt
    rw [BitVec.toNat_sub, show (1 : Byte).toNat = 1 from rfl]
    omega

/-- The timer step as the rule writes it. -/
theorem timerStep_eq_ticked (s : State) : s.timerStep = ticked s := by
  have hc : ∀ b : Byte, countDown b = if b.toNat > 0 then BitVec.ofNat 8 (b.toNat - 1) else 0 := by
    intro b
    apply BitVec.eq_of_toNat_eq
    rw [countDown_toNat]
    have := b.isLt
    split <;> simp <;> omega
  have he : (s.events ++ if s.st.toNat = 1 then [Event.beep] else []) =
      if s.st = 1 then s.events ++ [.beep] else s.events := by
    by_cases h : s.st = 1
    · rw [if_pos h, if_pos (by rw [h]; rfl)]
    · rw [if_neg h, if_neg (fun hn : s.st.toNat = 1 => h (BitVec.eq_of_toNat_eq hn)), List.append_nil]
  simp only [State.timerStep, ticked, hc, he]

theorem raise_eq_faulted (s : State) (c : FaultCause) (o n : Word) : s.raise c o n = faulted s c o n := rfl

/-! ### Fetch (spec/30_encoding.md R77) -/

theorem fetch_inside (s : State) (h : s.pc.toNat ≤ 0xFFE) :
    s.fetch = some (wordOfBytes (s.mem.read s.pc.toNat) (s.mem.read (s.pc.toNat + 1))) := by
  simp only [State.fetch, readBlock_inside s.mem s.pc.toNat 2 (by omega)]
  rfl

theorem fetch_outside (s : State) (h : 0xFFE < s.pc.toNat) : s.fetch = none := by
  simp only [State.fetch, readBlock_outside s.mem s.pc.toNat 2 (by omega) (by omega)]

/-! ### Sprites (spec/40_display.md R101 to R103) -/

/-- FB[p] after one plot: toggled exactly at the plotted pixel, if it is on the screen. -/
theorem pixel_plot (px py : Nat) (acc : Frame × Bool) (p : Nat) (hp : p < 2048) :
    pixel (plot px py acc).1 p = (pixel acc.1 p ^^ decide (p % 64 = px ∧ p / 64 = py)) := by
  have hrow : p / 64 < 32 := by omega
  by_cases h : px ≤ 63 ∧ py ≤ 31
  · simp only [plot, dif_pos h, pixel, dif_pos hrow]
    by_cases hy : p / 64 = py
    · subst hy
      simp only [Vector.getElem_set_self, BitVec.getLsbD_xor, BitVec.getLsbD_twoPow, and_true]
      congr 1
      by_cases hx : p % 64 = px
      · simp [hx]; omega
      · simp [hx, Ne.symm hx]
    · rw [Vector.getElem_set_ne _ _ (Ne.symm hy)]
      simp [hy]
  · have : ¬ (p % 64 = px ∧ p / 64 = py) := by omega
    simp [plot, dif_neg h, this]

/-- The collision mark after one plot. -/
theorem hit_plot (px py : Nat) (acc : Frame × Bool) :
    (plot px py acc).2 = (acc.2 || (decide (px ≤ 63 ∧ py ≤ 31) && pixel acc.1 (py * 64 + px))) := by
  by_cases h : px ≤ 63 ∧ py ≤ 31
  · have h1 : (py * 64 + px) / 64 = py := by omega
    have h2 : (py * 64 + px) % 64 = px := by omega
    have h3 : py < 32 := by omega
    simp [plot, pixel, h1, h2, h3, h]
  · simp [plot, h]

/-- Row r of the sprite's bits: pixel (col, row) is covered by the first `n` columns of a row byte at (ox, py). -/
def rowCovers (ox py n : Nat) (b : Byte) (p : Nat) : Bool :=
  decide (p / 64 = py ∧ ox ≤ p % 64 ∧ p % 64 < ox + n) && spriteBit b (p % 64 - ox)

theorem pixel_plotRow_aux (ox py : Nat) (b : Byte) (acc : Frame × Bool) (n p : Nat) (hp : p < 2048) :
    pixel ((List.range n).foldl (fun acc c => if spriteBit b c then plot (ox + c) py acc else acc) acc).1 p
      = (pixel acc.1 p ^^ rowCovers ox py n b p) := by
  induction n with
  | zero =>
    have : ¬ (p / 64 = py ∧ ox ≤ p % 64 ∧ p % 64 < ox + 0) := by omega
    simp only [rowCovers, this, decide_false, Bool.false_and, Bool.xor_false]
    rfl
  | succ n ih =>
    rw [List.range_succ, List.foldl_append, List.foldl_cons, List.foldl_nil]
    generalize (List.range n).foldl _ acc = a at ih ⊢
    by_cases hb : spriteBit b n = true
    · rw [if_pos hb, pixel_plot _ _ _ _ hp, ih, Bool.xor_assoc]
      congr 1
      by_cases hy : p / 64 = py
      · by_cases hx : p % 64 = ox + n
        · have : p % 64 - ox = n := by omega
          simp [rowCovers, hy, hx, hb]
        · have e : (ox ≤ p % 64 ∧ p % 64 < ox + (n + 1)) ↔ (ox ≤ p % 64 ∧ p % 64 < ox + n) := by omega
          simp [rowCovers, hy, hx, e]
      · simp [rowCovers, hy]
    · rw [if_neg hb, ih]
      congr 1
      by_cases hy : p / 64 = py
      · by_cases hx : p % 64 = ox + n
        · have : p % 64 - ox = n := by omega
          simp only [Bool.not_eq_true] at hb
          simp [rowCovers, hy, hx, hb]
        · have e : (ox ≤ p % 64 ∧ p % 64 < ox + (n + 1)) ↔ (ox ≤ p % 64 ∧ p % 64 < ox + n) := by omega
          simp [rowCovers, hy, e]
      · simp [rowCovers, hy]

/-- One sprite row toggles exactly its covered pixels. -/
theorem pixel_plotRow (ox py : Nat) (b : Byte) (acc : Frame × Bool) (p : Nat) (hp : p < 2048) :
    pixel (plotRow ox py b acc).1 p = (pixel acc.1 p ^^ rowCovers ox py 8 b p) :=
  pixel_plotRow_aux ox py b acc 8 p hp

theorem hit_plotRow_aux (ox py : Nat) (b : Byte) (acc : Frame × Bool) (n : Nat) :
    ((List.range n).foldl (fun acc c => if spriteBit b c then plot (ox + c) py acc else acc) acc).2 = true ↔
      (acc.2 = true ∨ ∃ p, p < 2048 ∧ rowCovers ox py n b p = true ∧ pixel acc.1 p = true) := by
  induction n with
  | zero =>
    simp only [List.range_zero, List.foldl_nil]
    constructor
    · exact .inl
    · rintro (h | ⟨p, _, hc, _⟩)
      · exact h
      · simp [rowCovers] at hc; omega
  | succ n ih =>
    rw [List.range_succ, List.foldl_append, List.foldl_cons, List.foldl_nil]
    have hpx := fun p hp => pixel_plotRow_aux ox py b acc n p hp
    generalize (List.range n).foldl _ acc = a at ih hpx ⊢
    have grow : ∀ p, rowCovers ox py n b p = true → rowCovers ox py (n + 1) b p = true := by
      intro p h
      simp only [rowCovers, Bool.and_eq_true, decide_eq_true_eq] at h ⊢
      exact ⟨by omega, h.2⟩
    by_cases hb : spriteBit b n = true
    · rw [if_pos hb, hit_plot, Bool.or_eq_true, ih]
      constructor
      · rintro ((h | ⟨p, hp, hc, hv⟩) | h)
        · exact .inl h
        · exact .inr ⟨p, hp, grow p hc, hv⟩
        · simp only [Bool.and_eq_true, decide_eq_true_eq] at h
          obtain ⟨⟨h1, h2⟩, hv⟩ := h
          have hp : py * 64 + (ox + n) < 2048 := by omega
          have hnot : rowCovers ox py n b (py * 64 + (ox + n)) = false := by
            have : (py * 64 + (ox + n)) % 64 = ox + n := by omega
            simp [rowCovers, this]
          refine .inr ⟨_, hp, ?_, ?_⟩
          · have e1 : (py * 64 + (ox + n)) % 64 = ox + n := by omega
            have e2 : (py * 64 + (ox + n)) / 64 = py := by omega
            simp [rowCovers, e1, e2, hb]
          · simpa [hpx _ hp, hnot] using hv
      · rintro (h | ⟨p, hp, hc, hv⟩)
        · exact .inl (.inl h)
        · by_cases hc' : rowCovers ox py n b p = true
          · exact .inl (.inr ⟨p, hp, hc', hv⟩)
          · simp only [rowCovers, Bool.and_eq_true, decide_eq_true_eq] at hc hc'
            have hx : p % 64 = ox + n := by
              rcases Nat.lt_or_ge (p % 64) (ox + n) with hl | hl
              · exact absurd ⟨⟨hc.1.1, hc.1.2.1, hl⟩, hc.2⟩ hc'
              · omega
            have hpe : py * 64 + (ox + n) = p := by omega
            have hnot : rowCovers ox py n b p = false := by simp [rowCovers, hx]
            refine .inr ?_
            rw [hpe, Bool.and_eq_true, decide_eq_true_eq]
            exact ⟨by omega, by rw [hpx p hp, hnot, hv]; rfl⟩
    · rw [if_neg hb, ih]
      constructor
      · rintro (h | ⟨p, hp, hc, hv⟩)
        · exact .inl h
        · exact .inr ⟨p, hp, grow p hc, hv⟩
      · rintro (h | ⟨p, hp, hc, hv⟩)
        · exact .inl h
        · refine .inr ⟨p, hp, ?_, hv⟩
          simp only [rowCovers, Bool.and_eq_true, decide_eq_true_eq] at hc ⊢
          have : p % 64 ≠ ox + n := by
            intro hx
            rw [hx, Nat.add_sub_cancel_left] at hc
            exact hb hc.2
          exact ⟨by omega, hc.2⟩

/-- One sprite row marks a collision exactly when a covered pixel was on. -/
theorem hit_plotRow (ox py : Nat) (b : Byte) (acc : Frame × Bool) :
    (plotRow ox py b acc).2 = true ↔
      (acc.2 = true ∨ ∃ p, p < 2048 ∧ rowCovers ox py 8 b p = true ∧ pixel acc.1 p = true) :=
  hit_plotRow_aux ox py b acc 8

/-- Pixel p is covered by the rows of a sprite from (ox, oy) on. -/
def rowsCover (ox oy : Nat) : List Byte → Nat → Bool
  | [], _ => false
  | b :: bs, p => rowCovers ox oy 8 b p || rowsCover ox (oy + 1) bs p

theorem rowsCover_above (ox oy : Nat) (bs : List Byte) (p : Nat) (h : p / 64 < oy) : rowsCover ox oy bs p = false := by
  induction bs generalizing oy with
  | nil => rfl
  | cons b bs ih =>
    have : p / 64 ≠ oy := by omega
    simp [rowsCover, rowCovers, this, ih (oy + 1) (by omega)]

/-- A sprite toggles exactly the pixels its rows cover (R102, R103). -/
theorem pixel_blit (ox oy : Nat) (rows : List Byte) (acc : Frame × Bool) (p : Nat) (hp : p < 2048) :
    pixel (blit ox oy rows acc).1 p = (pixel acc.1 p ^^ rowsCover ox oy rows p) := by
  induction rows generalizing oy acc with
  | nil => simp [blit, rowsCover]
  | cons b bs ih =>
    rw [blit, ih, pixel_plotRow _ _ _ _ _ hp, rowsCover, Bool.xor_assoc]
    congr 1
    by_cases hy : p / 64 = oy
    · rw [rowsCover_above ox (oy + 1) bs p (by omega)]; simp
    · simp [rowCovers, hy]

/-- A sprite marks a collision exactly when a covered pixel was on before the draw (R103). -/
theorem hit_blit (ox oy : Nat) (rows : List Byte) (acc : Frame × Bool) :
    (blit ox oy rows acc).2 = true ↔
      (acc.2 = true ∨ ∃ p, p < 2048 ∧ rowsCover ox oy rows p = true ∧ pixel acc.1 p = true) := by
  induction rows generalizing oy acc with
  | nil => simp [blit, rowsCover]
  | cons b bs ih =>
    rw [blit, ih, hit_plotRow]
    constructor
    · rintro ((h | ⟨p, hp, hc, hv⟩) | ⟨p, hp, hc, hv⟩)
      · exact .inl h
      · exact .inr ⟨p, hp, by simp [rowsCover, hc], hv⟩
      · refine .inr ⟨p, hp, by simp [rowsCover, hc], ?_⟩
        have hy : p / 64 ≠ oy := by
          intro hy
          rw [rowsCover_above ox (oy + 1) bs p (by omega)] at hc
          exact absurd hc (by simp)
        rw [pixel_plotRow _ _ _ _ _ hp] at hv
        simpa [rowCovers, hy] using hv
    · rintro (h | ⟨p, hp, hc, hv⟩)
      · exact .inl (.inl h)
      · rw [rowsCover, Bool.or_eq_true] at hc
        rcases hc with hc | hc
        · exact .inl (.inr ⟨p, hp, hc, hv⟩)
        · refine .inr ⟨p, hp, hc, ?_⟩
          have hy : p / 64 ≠ oy := by
            intro hy
            rw [rowsCover_above ox (oy + 1) bs p (by omega)] at hc
            exact absurd hc (by simp)
          rw [pixel_plotRow _ _ _ _ _ hp]
          simpa [rowCovers, hy] using hv

/-- The rows of a sprite as the rule indexes them: row r of n, bit c of 8 from the most significant. -/
theorem rowsCover_range (ox oy n : Nat) (f : Nat → Byte) (p : Nat) :
    rowsCover ox oy ((List.range n).map f) p =
      (decide (oy ≤ p / 64 ∧ p / 64 < oy + n ∧ ox ≤ p % 64 ∧ p % 64 < ox + 8) &&
        (f (p / 64 - oy)).getLsbD (7 - (p % 64 - ox))) := by
  induction n generalizing oy f with
  | zero =>
    have : ¬ (oy ≤ p / 64 ∧ p / 64 < oy + 0 ∧ ox ≤ p % 64 ∧ p % 64 < ox + 8) := by omega
    simp only [this, decide_false, Bool.false_and]
    rfl
  | succ n ih =>
    rw [List.range_succ_eq_map, List.map_cons, List.map_map, rowsCover, ih (oy + 1) (f ∘ Nat.succ)]
    by_cases hy : p / 64 = oy
    · have e : p / 64 - oy = 0 := by omega
      have no : ¬ (oy + 1 ≤ p / 64 ∧ p / 64 < oy + 1 + n ∧ ox ≤ p % 64 ∧ p % 64 < ox + 8) := by omega
      simp only [e, no, decide_false, Bool.false_and, Bool.or_false]
      simp [rowCovers, spriteBit, hy]
    · rw [show rowCovers ox oy 8 (f 0) p = false by simp [rowCovers, hy], Bool.false_or]
      by_cases hlt : oy ≤ p / 64
      · have e : p / 64 - oy = (p / 64 - (oy + 1)) + 1 := by omega
        have e2 : (oy + 1 ≤ p / 64 ∧ p / 64 < oy + 1 + n ∧ ox ≤ p % 64 ∧ p % 64 < ox + 8) ↔
            (oy ≤ p / 64 ∧ p / 64 < oy + (n + 1) ∧ ox ≤ p % 64 ∧ p % 64 < ox + 8) := by omega
        simp only [e, e2, Function.comp]
      · have e1 : ¬ (oy + 1 ≤ p / 64 ∧ p / 64 < oy + 1 + n ∧ ox ≤ p % 64 ∧ p % 64 < ox + 8) := by omega
        have e2 : ¬ (oy ≤ p / 64 ∧ p / 64 < oy + (n + 1) ∧ ox ≤ p % 64 ∧ p % 64 < ox + 8) := by omega
        rw [decide_eq_false e1, decide_eq_false e2, Bool.false_and, Bool.false_and]

/-- Equal framebuffers are those with equal pixels. -/
theorem frame_ext {f g : Frame} (h : ∀ p, p < 2048 → pixel f p = pixel g p) : f = g := by
  apply Vector.ext
  intro row hrow
  apply BitVec.eq_of_getLsbD_eq
  intro col hcol
  have := h (row * 64 + col) (by omega)
  have e1 : (row * 64 + col) / 64 = row := by omega
  have e2 : (row * 64 + col) % 64 = col := by omega
  simpa only [pixel, e1, e2, dif_pos hrow] using this

end Sys2Proof.Machine
end

