-- ==== Sys2Proof/Laws/Cycle.lean ====
section
/-! SUPPORT. What a cycle, a step and a host operation can do, each said once. -/

namespace Sys2Proof.Machine

/-- A halted core only emits HALTED (spec/60_exceptions.md R231). -/
theorem cycle_halted (r : Byte) (s : State) (h : s.faultCause ≠ .none) :
    cycle r s = .next { s with rand := r, events := [.halted] } := by
  have hh : (s.beginCycle r).halted = true := by simp [State.halted, h]
  simp only [cycle, hh, if_true]
  rfl

/-- A fetch outside memory raises FETCH_OOB (spec/30_encoding.md R77). -/
theorem cycle_fetchOob (r : Byte) (s : State) (h : s.faultCause = .none) (hpc : 0xFFE < s.pc.toNat) :
    cycle r s = .next (faulted { s with rand := r, events := [] } .fetchOob 0 s.pc) := by
  have hh : (s.beginCycle r).halted = false := by simp [State.halted, h]
  simp only [cycle, hh, fetch_outside (s.beginCycle r) hpc]
  rfl

/-- An unrecognized word is a no-op that completes (spec/30_encoding.md R75). -/
theorem cycle_illegal (r : Byte) (s : State) (h : s.faultCause = .none) (w : Word) (hw : s.fetch = some w) (e : Reject)
    (hd : decodeWord w = .error e) :
    cycle r s = .next (ticked { s with rand := r, events := [.illegalOpcode s.pc w] }) := by
  have hh : (s.beginCycle r).halted = false := by simp [State.halted, h]
  have hf : (s.beginCycle r).fetch = some w := hw
  have hc : ((s.beginCycle r).illegal w).completed = true := by
    simp [State.completed, State.halted, h]
  simp only [cycle, hh, hf, hd, State.finishCycle, hc, timerStep_eq_ticked]
  rfl

/-- A recognized word runs its instruction, then the timer step unless it faulted or blocked (spec/30_encoding.md R76). -/
theorem cycle_exec (r : Byte) (s u : State) (h : s.faultCause = .none) (w : Word) (hw : s.fetch = some w) (i : Instr)
    (hd : decodeWord w = .ok i) (hx : exec i { s with rand := r, events := [] } = .next u) :
    cycle r s = .next (if u.faultCause ≠ .none ∨ .waiting ∈ u.events then u else ticked u) := by
  have hh : (s.beginCycle r).halted = false := by simp [State.halted, h]
  have hf : (s.beginCycle r).fetch = some w := hw
  have hx' : exec i (s.beginCycle r) = .next u := hx
  simp only [cycle, hh, hf, hd, hx', State.finishCycle, timerStep_eq_ticked]
  have hc : u.completed = !decide (u.faultCause ≠ .none ∨ .waiting ∈ u.events) := by
    simp [State.completed, State.halted]
    cases hfc : u.faultCause <;> simp
  rw [hc]
  by_cases hb : u.faultCause ≠ .none ∨ .waiting ∈ u.events <;> simp [hb]

/-- The word `placeWord` stores is the one the next cycle fetches. -/
theorem fetch_placeWord (s : State) (hm : s.mem.wf = true) (w : Word) : (s.placeWord w).fetch = some w := by
  have hpc : (s.placeWord w).pc.toNat ≤ 0xFFE := by
    simp only [State.placeWord]
    split <;> simp_all
  rw [fetch_inside _ hpc]
  have hlen : (s.placeWord w).pc.toNat + [highByte w, lowByte w].length ≤ 0x1000 := by
    simp only [List.length_cons, List.length_nil]; omega
  have h0 := read_copyBytes_inside hm _ _ hlen 0 (by simp)
  have h1 := read_copyBytes_inside hm _ _ hlen 1 (by simp)
  have hmem : (s.placeWord w).mem = copyBytes s.mem (s.placeWord w).pc.toNat [highByte w, lowByte w] := rfl
  rw [hmem]
  simp only [Nat.add_zero, List.getElem_cons_zero] at h0
  simp only [List.getElem_cons_succ, List.getElem_cons_zero] at h1
  rw [h0, h1, wordOfBytes_high_low]

end Sys2Proof.Machine
end

