-- ==== Sys2Proof/Laws/Exec.lean ====
section
/-! SUPPORT. For each instruction whose meaning has cases, the one equation that gives them. The other instructions answer
their next state by definition. -/

namespace Sys2Proof.Machine

theorem exec_ret (s : State) : exec .ret s =
    if h : 0 < s.sp.val then
      .next { s with
        sp := ⟨s.sp.val - 1, by have := s.sp.isLt; omega⟩
        pc := s.stack[s.sp.val - 1]'(by have := s.sp.isLt; omega) + 2 }
    else .next (faulted s .stackUnderflow (encode .ret) 0) := by
  split
  · rename_i h
    simp only [exec, execRet, pop_entry s h]
    rfl
  · rename_i h
    simp only [exec, execRet, pop_empty s (by omega)]
    rfl

theorem exec_callAddr (nnn : Addr) (s : State) : exec (.callAddr nnn) s =
    if h : s.sp.val < 16 then
      .next { s with
        stack := s.stack.set s.sp.val s.pc h, sp := ⟨s.sp.val + 1, Nat.succ_lt_succ h⟩, pc := zextAddr nnn }
    else .next (faulted s .stackOverflow (encode (.callAddr nnn)) 16) := by
  split
  · rename_i h
    simp only [exec, execCallAddr, push_room s h]
    rfl
  · rename_i h
    simp only [exec, execCallAddr, push_full s (by have := s.sp.isLt; omega)]
    rfl

theorem zextByte_eq (b : Byte) : zextByte b = BitVec.ofNat 16 b.toNat := by
  apply BitVec.eq_of_toNat_eq; simp [zextByte]

theorem exec_skp (x : Nibble) (s : State) : exec (.skp x) s =
    if (s.readV x).toNat > 15 then .next (faulted s .keyIndex (encode (.skp x)) (BitVec.ofNat 16 (s.readV x).toNat))
    else .next (s.skipIf (s.key (s.readV x).toNat)) := by
  simp only [exec, execSkp, State.withKey, zextByte_eq]
  rfl

theorem exec_sknp (x : Nibble) (s : State) : exec (.sknp x) s =
    if (s.readV x).toNat > 15 then .next (faulted s .keyIndex (encode (.sknp x)) (BitVec.ofNat 16 (s.readV x).toNat))
    else .next (s.skipIf (!s.key (s.readV x).toNat)) := by
  simp only [exec, execSknp, State.withKey, zextByte_eq]
  rfl

/-- The key wait in the two cases of R203: with a pressed key the highest one is taken, with none the cycle blocks. -/
theorem exec_ldVxK (x : Nibble) (s : State) : exec (.ldVxK x) s =
    match highestKey s.keys with
    | some k => .next (s.setV x (BitVec.ofNat 8 k)).advance
    | none => .next (s.emit .waiting) := rfl

/-- The rows DRW reads, from I on. -/
def spriteRows (s : State) (n : Nat) : List Byte := (List.range n).map fun j => s.mem.read (s.i.toNat + j)

/-- The framebuffer and the collision mark after DRW. -/
def drawn (s : State) (x y n : Nibble) : Frame × Bool :=
  blit (s.readV x).toNat (s.readV y).toNat (spriteRows s n.toNat) (s.fb, false)

theorem exec_drw (x y n : Nibble) (s : State) : exec (.drw x y n) s =
    if n.toNat = 0 ∨ s.i.toNat + n.toNat ≤ 0x1000 then
      .next ((s.setVF (flagOf (drawn s x y n).2)).show (drawn s x y n).1).advance
    else .next (faulted s .dataOob (encode (.drw x y n)) (BitVec.ofNat 16 (max s.i.toNat 0x1000))) := by
  simp only [exec, execDrw, loadThroughI_eq]
  rfl

/-- `covers` is what the rows DRW reads cover. -/
theorem covers_eq_rowsCover (s : State) (x y n : Nibble) (p : Nat) :
    s.covers x y n p = rowsCover (s.readV x).toNat (s.readV y).toNat (spriteRows s n.toNat) p := by
  rw [spriteRows, rowsCover_range]
  rfl

@[simp] theorem bcdBytes_length (v : Byte) : (bcdBytes v).length = 3 := rfl

theorem exec_ldB (x : Nibble) (s : State) : exec (.ldB x) s =
    if s.i.toNat + 3 ≤ 0x1000 then
      .next (s.setMem (copyBytes s.mem s.i.toNat (bcdBytes (s.readV x)))).advance
    else .next (faulted s .dataOob (encode (.ldB x)) (BitVec.ofNat 16 (max s.i.toNat 0x1000))) := by
  simp only [exec, execLdB]
  rw [storeThroughI_eq _ _ _ _ (by simp), bcdBytes_length]
  rfl

@[simp] theorem firstRegs_length_nibble (s : State) (x : Nibble) : (s.firstRegs (x.toNat + 1)).length = x.toNat + 1 :=
  firstRegs_length s (by have := x.isLt; omega)

theorem exec_storeRegs (x : Nibble) (s : State) : exec (.storeRegs x) s =
    if s.i.toNat + (x.toNat + 1) ≤ 0x1000 then
      .next ((s.setMem (copyBytes s.mem s.i.toNat (s.firstRegs (x.toNat + 1)))).setI
        (s.i + BitVec.ofNat 16 (x.toNat + 1))).advance
    else .next (faulted s .dataOob (encode (.storeRegs x)) (BitVec.ofNat 16 (max s.i.toNat 0x1000))) := by
  simp only [exec, execStoreRegs]
  rw [storeThroughI_eq _ _ _ _ (by simp), firstRegs_length_nibble]
  rfl

theorem exec_loadRegs (x : Nibble) (s : State) : exec (.loadRegs x) s =
    if s.i.toNat + (x.toNat + 1) ≤ 0x1000 then
      .next { s with
        v := fillRegs s.v 0 ((List.range (x.toNat + 1)).map fun j => s.mem.read (s.i.toNat + j))
        i := s.i + BitVec.ofNat 16 (x.toNat + 1)
        pc := s.pc + 2 }
    else .next (faulted s .dataOob (encode (.loadRegs x)) (BitVec.ofNat 16 (max s.i.toNat 0x1000))) := by
  simp only [exec, execLoadRegs, loadThroughI_eq, Nat.add_eq_zero_iff, Nat.one_ne_zero, and_false, false_or]
  rfl

end Sys2Proof.Machine
end

