-- ==== Sys2Proof/Laws/Effects.lean ====
section
/-! SUPPORT. What every instruction can do, said once: the fault it raises, or the next state and what that state shares with
the one before; and the four ways a running cycle goes. The statements about all instructions and cycles cite these lemmas. -/

namespace Sys2Proof.Machine

/-- A range check that fails (spec/43_index_memory.md R185). -/
theorem dataFault_some (s : State) {k : Nat} {c : FaultCause} {n : Nat} (h : s.dataFault k = some (c, n)) :
    ¬ (k = 0 ∨ s.i.toNat + k ≤ 0x1000) ∧ c = .dataOob ∧ n = max s.i.toNat 0x1000 := by
  simp only [State.dataFault] at h
  split at h
  · simp at h; refine ⟨by omega, h.1.symm, h.2.symm⟩
  · simp at h

/-- A range check that passes. -/
theorem dataFault_none (s : State) {k : Nat} (h : s.dataFault k = none) :
    (k = 0 ∨ s.i.toNat + k ≤ 0x1000) := by
  simp only [State.dataFault] at h
  split at h
  · simp at h
  · omega

/-- An instruction whose fault condition holds does fault entry and nothing else (spec/60_exceptions.md R221, R229). -/
theorem exec_fault (i : Instr) (s : State) (c : FaultCause) (n : Nat) (h : s.faultFor i = some (c, n)) :
    exec i s = .next (faulted s c (encode i) (BitVec.ofNat 16 n)) := by
  cases i <;> simp only [State.faultFor] at h <;> try (simp at h; done)
  case ret => split at h <;> simp at h; obtain ⟨rfl, rfl⟩ := h; rw [exec_ret, dif_neg (by omega)]; rfl
  case callAddr => split at h <;> simp at h; obtain ⟨rfl, rfl⟩ := h; rw [exec_callAddr, dif_neg (by omega)]; rfl
  case skp x =>
    simp only [State.keyFault] at h
    split at h <;> simp at h
    obtain ⟨rfl, rfl⟩ := h
    rw [exec_skp, if_pos (by assumption)]
  case sknp x =>
    simp only [State.keyFault] at h
    split at h <;> simp at h
    obtain ⟨rfl, rfl⟩ := h
    rw [exec_sknp, if_pos (by assumption)]
  all_goals obtain ⟨h0, rfl, rfl⟩ := dataFault_some s h
  · rw [exec_drw, if_neg h0]
  · rw [exec_ldB, if_neg (by omega)]
  · rw [exec_storeRegs, if_neg (by omega)]
  · rw [exec_loadRegs, if_neg (by omega)]

/-- What an instruction that raises no fault does to the state, and what it leaves alone. -/
structure Effect (i : Instr) (s t : State) : Prop where
  runs : exec i s = .next t
  faultCause : t.faultCause = s.faultCause
  faultPc : t.faultPc = s.faultPc
  faultOpcode : t.faultOpcode = s.faultOpcode
  faultInfo : t.faultInfo = s.faultInfo
  keys : t.keys = s.keys
  font : t.mem.font = s.mem.font
  inputs : t.inputs = s.inputs
  rand : t.rand = s.rand
  events : t.events = s.events ∨ (t = s.emit .waiting ∧ s.keys = 0 ∧ ∃ x, i = .ldVxK x)
  mem : i.writesM = false → t.mem = s.mem
  wf : s.mem.wf = true → t.mem.wf = true
  dt : (∀ x, i ≠ .ldDtVx x) → t.dt = s.dt
  st : (∀ x, i ≠ .ldStVx x) → t.st = s.st
  index : i.writesI = false → t.i = s.i
  fb : i.draws = false → t.fb = s.fb ∧ t.redraw = s.redraw
  redraw : i.draws = true → t.redraw = true
  stack : (∀ a, i ≠ .callAddr a) → t.stack = s.stack
  sp : (∀ a, i ≠ .callAddr a) → i ≠ .ret → t.sp = s.sp
  v : ∀ r, i.writesV r = false → t.readV r = s.readV r

/-- Every instruction that raises no fault answers a next state with that effect. -/
theorem exec_effect (i : Instr) (s : State) (h : s.faultFor i = none) : ∃ t, Effect i s t := by
  cases i <;> simp only [State.faultFor] at h
  case ret =>
    have h0 : 0 < s.sp.val := by split at h <;> simp at h; omega
    refine ⟨_, (exec_ret s).trans (dif_pos h0), rfl, rfl, rfl, rfl, rfl, rfl, rfl, rfl, .inl rfl, fun _ => rfl, id,
      fun _ => rfl, fun _ => rfl, fun _ => rfl, fun _ => ⟨rfl, rfl⟩, fun h => absurd h (by simp [Instr.draws]),
      fun _ => rfl, fun _ h => absurd rfl h, fun r hr => rfl⟩
  case callAddr a =>
    have h0 : s.sp.val < 16 := by have := s.sp.isLt; split at h <;> simp at h; omega
    refine ⟨_, (exec_callAddr a s).trans (dif_pos h0), rfl, rfl, rfl, rfl, rfl, rfl, rfl, rfl, .inl rfl,
      fun _ => rfl, id, fun _ => rfl, fun _ => rfl, fun _ => rfl, fun _ => ⟨rfl, rfl⟩,
      fun h => absurd h (by simp [Instr.draws]), fun h => absurd rfl (h a), fun h => absurd rfl (h a),
      fun r hr => rfl⟩
  case drw x y n =>
    refine ⟨_, (exec_drw x y n s).trans (if_pos (dataFault_none s h)), rfl, rfl, rfl, rfl, rfl, rfl, rfl, rfl,
      .inl rfl, fun _ => rfl, id, fun _ => rfl, fun _ => rfl, fun _ => rfl,
      fun h => absurd h (by simp [Instr.draws]), fun _ => rfl, fun _ => rfl, fun _ _ => rfl,
      fun r hr => by simp_all [Instr.writesV, readV_setVF]⟩
  case skp x =>
    have h0 : ¬ (s.readV x).toNat > 15 := by simp only [State.keyFault] at h; split at h <;> simp at h; assumption
    refine ⟨_, (exec_skp x s).trans (if_neg h0), rfl, rfl, rfl, rfl, rfl, rfl, rfl, rfl, .inl rfl, fun _ => rfl, id,
      fun _ => rfl, fun _ => rfl, fun _ => rfl, fun _ => ⟨rfl, rfl⟩, fun h => absurd h (by simp [Instr.draws]),
      fun _ => rfl, fun _ _ => rfl, fun r hr => rfl⟩
  case sknp x =>
    have h0 : ¬ (s.readV x).toNat > 15 := by simp only [State.keyFault] at h; split at h <;> simp at h; assumption
    refine ⟨_, (exec_sknp x s).trans (if_neg h0), rfl, rfl, rfl, rfl, rfl, rfl, rfl, rfl, .inl rfl, fun _ => rfl, id,
      fun _ => rfl, fun _ => rfl, fun _ => rfl, fun _ => ⟨rfl, rfl⟩, fun h => absurd h (by simp [Instr.draws]),
      fun _ => rfl, fun _ _ => rfl, fun r hr => rfl⟩
  case ldVxK x =>
    cases hk : highestKey s.keys with
    | none =>
      refine ⟨s.emit .waiting, by rw [exec_ldVxK, hk], rfl, rfl, rfl, rfl, rfl, rfl, rfl, rfl,
        .inr ⟨rfl, highestKey_none.1 hk, x, rfl⟩, fun _ => rfl, id, fun _ => rfl, fun _ => rfl, fun _ => rfl, fun _ => ⟨rfl, rfl⟩,
      fun h => absurd h (by simp [Instr.draws]), fun _ => rfl, fun _ _ => rfl, fun r hr => rfl⟩
    | some k =>
      refine ⟨(s.setV x (BitVec.ofNat 8 k)).advance, by rw [exec_ldVxK, hk], rfl, rfl, rfl, rfl, rfl, rfl, rfl, rfl,
      .inl rfl, fun _ => rfl, id, fun _ => rfl, fun _ => rfl, fun _ => rfl, fun _ => ⟨rfl, rfl⟩,
      fun h => absurd h (by simp [Instr.draws]), fun _ => rfl, fun _ _ => rfl,
      fun r hr => by simp_all [Instr.writesV, readV_setV]⟩
  case ldB x =>
    have h0 := dataFault_none s h
    refine ⟨_, (exec_ldB x s).trans (if_pos (by omega)), rfl, rfl, rfl, rfl, rfl, by simp, rfl, rfl, .inl rfl,
      fun h => absurd h (by simp [Instr.writesM]), fun hw => copyBytes_wf hw _ _ (by simp; omega), fun _ => rfl,
      fun _ => rfl, fun _ => rfl, fun _ => ⟨rfl, rfl⟩, fun h => absurd h (by simp [Instr.draws]), fun _ => rfl,
      fun _ _ => rfl, fun r hr => rfl⟩
  case storeRegs x =>
    have h0 := dataFault_none s h
    refine ⟨_, (exec_storeRegs x s).trans (if_pos (by omega)), rfl, rfl, rfl, rfl, rfl, by simp, rfl, rfl, .inl rfl,
      fun h => absurd h (by simp [Instr.writesM]), fun hw => copyBytes_wf hw _ _ (by simp; omega), fun _ => rfl,
      fun _ => rfl, fun h => absurd h (by simp [Instr.writesI]), fun _ => ⟨rfl, rfl⟩,
      fun h => absurd h (by simp [Instr.draws]), fun _ => rfl, fun _ _ => rfl, fun r hr => rfl⟩
  case loadRegs x =>
    have h0 := dataFault_none s h
    refine ⟨_, (exec_loadRegs x s).trans (if_pos (by omega)), rfl, rfl, rfl, rfl, rfl, rfl, rfl, rfl, .inl rfl,
      fun _ => rfl, id, fun _ => rfl, fun _ => rfl, fun h => absurd h (by simp [Instr.writesI]), fun _ => ⟨rfl, rfl⟩,
      fun h => absurd h (by simp [Instr.draws]), fun _ => rfl, fun _ _ => rfl, fun r hr => ?_⟩
    simp only [Instr.writesV, decide_eq_false_iff_not] at hr
    simp only [State.readV]
    rw [fillRegs_getElem _ _ _ _ r.isLt, dif_neg]
    simp; omega
  all_goals exact ⟨_, rfl, rfl, rfl, rfl, rfl, rfl, rfl, rfl, rfl, .inl rfl,
      fun h => by first | rfl | exact absurd h (by simp [Instr.writesM]), id,
      fun h => by first | rfl | exact absurd rfl (h _), fun h => by first | rfl | exact absurd rfl (h _),
      fun h => by first | rfl | exact absurd h (by simp [Instr.writesI]), fun h => by first | exact ⟨rfl, rfl⟩ | exact absurd h (by simp [Instr.draws]),
      fun h => by first | rfl | exact absurd h (by simp [Instr.draws]), fun _ => rfl, fun _ _ => rfl,
      fun r hr => by simp_all [Instr.writesV, readV_setV, readV_setVF]⟩

/-- No fault condition carries the cause NONE. -/
theorem faultFor_cause {s : State} {i : Instr} {c : FaultCause} {n : Nat} (h : s.faultFor i = some (c, n)) :
    c ≠ .none := by
  rintro rfl
  cases i <;> simp only [State.faultFor, State.dataFault, State.keyFault] at h <;>
    first | (simp at h; done) | (split at h <;> simp at h)

/-- What a cycle of a running core does: it raises FETCH_OOB, or stalls on an unrecognized word, or enters the fault of its
instruction, or has its instruction's effect; then the timer step, unless it faulted or blocked (spec/30_encoding.md R76). -/
theorem cycle_cases {r : Byte} {s t : State} (h : s.faultCause = .none) (ht : cycle r s = .next t) :
    (s.fetch = none ∧ 0xFFE < s.pc.toNat ∧ t = faulted { s with rand := r, events := [] } .fetchOob 0 s.pc) ∨
    (∃ w e, s.pc.toNat ≤ 0xFFE ∧ s.fetch = some w ∧ decodeWord w = .error e ∧
      t = ticked { s with rand := r, events := [.illegalOpcode s.pc w] }) ∨
    (∃ w i c n, s.pc.toNat ≤ 0xFFE ∧ s.fetch = some w ∧ decodeWord w = .ok i ∧ s.faultFor i = some (c, n) ∧
      t = faulted { s with rand := r, events := [] } c (encode i) (BitVec.ofNat 16 n)) ∨
    (∃ w i u, s.pc.toNat ≤ 0xFFE ∧ s.fetch = some w ∧ decodeWord w = .ok i ∧ s.faultFor i = none ∧
      Effect i { s with rand := r, events := [] } u ∧
      ((u.events = [] ∧ t = ticked u) ∨
        (t = u ∧ u = { s with rand := r, events := [.waiting] } ∧ s.keys = 0 ∧ ∃ x, i = .ldVxK x))) := by
  by_cases hp : s.pc.toNat ≤ 0xFFE
  · right
    have hw := fetch_inside s hp
    generalize wordOfBytes (s.mem.read s.pc.toNat) (s.mem.read (s.pc.toNat + 1)) = w at hw
    cases hd : decodeWord w with
    | error e =>
      rw [cycle_illegal r s h w hw e hd] at ht
      injection ht with ht
      exact .inl ⟨w, e, hp, hw, hd, ht.symm⟩
    | ok i =>
      right
      cases hf : s.faultFor i with
      | some cn =>
        rw [cycle_exec r s _ h w hw i hd (exec_fault i { s with rand := r, events := [] } cn.1 cn.2 hf)] at ht
        injection ht with ht
        rw [if_pos (.inl (faultFor_cause hf))] at ht
        exact .inl ⟨w, i, cn.1, cn.2, hp, hw, hd, hf, ht.symm⟩
      | none =>
        right
        obtain ⟨u, hu⟩ := exec_effect i { s with rand := r, events := [] } hf
        rw [cycle_exec r s _ h w hw i hd hu.runs] at ht
        injection ht with ht
        refine ⟨w, i, u, hp, hw, hd, hf, hu, ?_⟩
        rcases hu.events with he | ⟨he, hk, x, hx⟩
        · left
          refine ⟨he, ?_⟩
          rw [if_neg] at ht
          · exact ht.symm
          · rw [hu.faultCause, he]; simp [h]
        · right
          have hu' : u = { s with rand := r, events := [.waiting] } := by rw [he]; rfl
          rw [if_pos (by right; rw [hu']; simp)] at ht
          exact ⟨ht.symm, hu', hk, x, hx⟩
  · left
    rw [cycle_fetchOob r s h (by omega)] at ht
    injection ht with ht
    exact ⟨fetch_outside s (by omega), by omega, ht.symm⟩

end Sys2Proof.Machine
end

