-- ==== Sys2Proof/Laws/PerInstr.lean ====
section
/-! SUPPORT. What holds of every instruction as syntax, one lemma per constructor. The family `EncodingRow`: the word of an
instruction matches its own row of the opcode table (spec/30_encoding.md R73, R74). -/

namespace Sys2Proof

theorem packA_and (g g' : Nibble) (a a' : Addr) : packA g a &&& packA g' a' = packA (g &&& g') (a &&& a') :=
  BitVec.and_append

theorem packXB_and (g g' x x' : Nibble) (b b' : Byte) :
    packXB g x b &&& packXB g' x' b' = packXB (g &&& g') (x &&& x') (b &&& b') :=
  (BitVec.and_append (x₁ := g ++ x) (x₂ := g' ++ x')).trans (congrArg (· ++ (b &&& b')) BitVec.and_append)

theorem packXYN_and (g g' x x' y y' n n' : Nibble) :
    packXYN g x y n &&& packXYN g' x' y' n' = packXYN (g &&& g') (x &&& x') (y &&& y') (n &&& n') :=
  (BitVec.and_append (x₁ := g ++ x ++ y) (x₂ := g' ++ x' ++ y')).trans
    (congrArg (· ++ (n &&& n')) ((BitVec.and_append (x₁ := g ++ x) (x₂ := g' ++ x')).trans
      (congrArg (· ++ (y &&& y')) BitVec.and_append)))

/-- A format A word under the mask of its group. -/
theorem packA_mask (g : Nibble) (a : Addr) : packA g a &&& packA 0xF 0x000 = packA g 0 := by
  rw [packA_and]
  congr 1
  · exact BitVec.and_allOnes
  · exact BitVec.and_zero

/-- A format XB word under the mask of its group. -/
theorem packXB_mask (g x : Nibble) (b : Byte) : packXB g x b &&& packXB 0xF 0x0 0x00 = packXB g 0 0 := by
  rw [packXB_and]
  congr 1
  · exact BitVec.and_allOnes
  · exact BitVec.and_zero
  · exact BitVec.and_zero

/-- A format XF word under its mask. -/
theorem packXF_mask (g x : Nibble) (b : Byte) : packXB g x b &&& packXB 0xF 0x0 0xFF = packXB g 0 b := by
  rw [packXB_and]
  congr 1
  · exact BitVec.and_allOnes
  · exact BitVec.and_zero
  · exact BitVec.and_allOnes

/-- A format XYN word under its mask. -/
theorem packXYN_mask (g x y n : Nibble) : packXYN g x y n &&& packXYN 0xF 0x0 0x0 0x0 = packXYN g 0 0 0 := by
  rw [packXYN_and]
  congr 1
  · exact BitVec.and_allOnes
  · exact BitVec.and_zero
  · exact BitVec.and_zero
  · exact BitVec.and_zero

/-- A format XYF word under its mask. -/
theorem packXYF_mask (g x y n : Nibble) : packXYN g x y n &&& packXYN 0xF 0x0 0x0 0xF = packXYN g 0 0 n := by
  rw [packXYN_and]
  congr 1
  · exact BitVec.and_allOnes
  · exact BitVec.and_zero
  · exact BitVec.and_zero
  · exact BitVec.and_allOnes

end Sys2Proof

namespace Sys2Proof.Laws.EncodingRow

/-- The instruction's word matches its row of R73. -/
def Statement (i : Instr) : Prop := ∃ row ∈ opcodeTable, row.number = i.rowNumber ∧ row.matches (encode i) = true

/-- The statement from the row's place in the table and the masked word. -/
theorem of_row {i : Instr} (k : Fin 34) (hk : (opcodeTable[k.val]'k.isLt).number = i.rowNumber)
    (h : encode i &&& (opcodeTable[k.val]'k.isLt).mask = (opcodeTable[k.val]'k.isLt).value) : Statement i :=
  ⟨opcodeTable[k.val]'k.isLt, List.getElem_mem _, hk, beq_iff_eq.mpr h⟩

theorem cls : Statement (.cls) := of_row 0 rfl rfl
theorem ret : Statement (.ret) := of_row 1 rfl rfl
theorem jpAddr (nnn : Addr) : Statement (.jpAddr nnn) := of_row 2 rfl (packA_mask _ _)
theorem callAddr (nnn : Addr) : Statement (.callAddr nnn) := of_row 3 rfl (packA_mask _ _)
theorem seByte (x : Nibble) (nn : Byte) : Statement (.seByte x nn) := of_row 4 rfl (packXB_mask _ _ _)
theorem sneByte (x : Nibble) (nn : Byte) : Statement (.sneByte x nn) := of_row 5 rfl (packXB_mask _ _ _)
theorem seReg (x y : Nibble) : Statement (.seReg x y) := of_row 6 rfl (packXYF_mask _ _ _ _)
theorem ldByte (x : Nibble) (nn : Byte) : Statement (.ldByte x nn) := of_row 7 rfl (packXB_mask _ _ _)
theorem addByte (x : Nibble) (nn : Byte) : Statement (.addByte x nn) := of_row 8 rfl (packXB_mask _ _ _)
theorem ldReg (x y : Nibble) : Statement (.ldReg x y) := of_row 9 rfl (packXYF_mask _ _ _ _)
theorem orReg (x y : Nibble) : Statement (.orReg x y) := of_row 10 rfl (packXYF_mask _ _ _ _)
theorem andReg (x y : Nibble) : Statement (.andReg x y) := of_row 11 rfl (packXYF_mask _ _ _ _)
theorem xorReg (x y : Nibble) : Statement (.xorReg x y) := of_row 12 rfl (packXYF_mask _ _ _ _)
theorem addReg (x y : Nibble) : Statement (.addReg x y) := of_row 13 rfl (packXYF_mask _ _ _ _)
theorem subReg (x y : Nibble) : Statement (.subReg x y) := of_row 14 rfl (packXYF_mask _ _ _ _)
theorem shrReg (x y : Nibble) : Statement (.shrReg x y) := of_row 15 rfl (packXYF_mask _ _ _ _)
theorem subnReg (x y : Nibble) : Statement (.subnReg x y) := of_row 16 rfl (packXYF_mask _ _ _ _)
theorem shlReg (x y : Nibble) : Statement (.shlReg x y) := of_row 17 rfl (packXYF_mask _ _ _ _)
theorem sneReg (x y : Nibble) : Statement (.sneReg x y) := of_row 18 rfl (packXYF_mask _ _ _ _)
theorem ldI (nnn : Addr) : Statement (.ldI nnn) := of_row 19 rfl (packA_mask _ _)
theorem jpV0 (nnn : Addr) : Statement (.jpV0 nnn) := of_row 20 rfl (packA_mask _ _)
theorem rnd (x : Nibble) (nn : Byte) : Statement (.rnd x nn) := of_row 21 rfl (packXB_mask _ _ _)
theorem drw (x y n : Nibble) : Statement (.drw x y n) := of_row 22 rfl (packXYN_mask _ _ _ _)
theorem skp (x : Nibble) : Statement (.skp x) := of_row 23 rfl (packXF_mask _ _ _)
theorem sknp (x : Nibble) : Statement (.sknp x) := of_row 24 rfl (packXF_mask _ _ _)
theorem ldVxDt (x : Nibble) : Statement (.ldVxDt x) := of_row 25 rfl (packXF_mask _ _ _)
theorem ldVxK (x : Nibble) : Statement (.ldVxK x) := of_row 26 rfl (packXF_mask _ _ _)
theorem ldDtVx (x : Nibble) : Statement (.ldDtVx x) := of_row 27 rfl (packXF_mask _ _ _)
theorem ldStVx (x : Nibble) : Statement (.ldStVx x) := of_row 28 rfl (packXF_mask _ _ _)
theorem addI (x : Nibble) : Statement (.addI x) := of_row 29 rfl (packXF_mask _ _ _)
theorem ldF (x : Nibble) : Statement (.ldF x) := of_row 30 rfl (packXF_mask _ _ _)
theorem ldB (x : Nibble) : Statement (.ldB x) := of_row 31 rfl (packXF_mask _ _ _)
theorem storeRegs (x : Nibble) : Statement (.storeRegs x) := of_row 32 rfl (packXF_mask _ _ _)
theorem loadRegs (x : Nibble) : Statement (.loadRegs x) := of_row 33 rfl (packXF_mask _ _ _)

end Sys2Proof.Laws.EncodingRow
end

