-- ==== Sys2Proof/Tests/Slice0.lean ====
section
/-! SUPPORT. The model's own tests. Every expected value is a vector of spec/95_test_vectors.md (E and T numbers), a pattern of
spec/30_encoding.md R73 with its fields filled in by hand, or a range of R78. The last part shows, for each statement with
hypotheses, a state and operands that meet them. -/

namespace Sys2Proof.Tests

open Sys2Proof.Machine

/-! ### Ill-formed source lines (spec/30_encoding.md R78): one for each check -/

theorem test_wellFormed_accepts :
    (Stmt.ins .drw [.v 15, .v 0, .num 15]).wellFormed = true ∧ (Stmt.ins .ld [.v 15, .num 255]).wellFormed = true ∧
    (Stmt.ins .jp [.num 4095]).wellFormed = true ∧ (Stmt.dw 65535).wellFormed = true ∧
    (Line.mk (some ['_', 'a', '1']) (.ins .cls [])).wellFormed = true := by decide

theorem test_regOk_refuses_v16 :
    (Stmt.ins .skp [.v 16]).wellFormed = false ∧ (Stmt.ins .or [.v 0, .v 16]).wellFormed = false := by decide

theorem test_byteOk_refuses_256 : (Stmt.ins .add [.v 1, .num 256]).wellFormed = false := by decide

theorem test_nibbleOk_refuses_16 : (Stmt.ins .drw [.v 1, .v 2, .num 16]).wellFormed = false := by decide

theorem test_addrOk_refuses_4096 :
    (Stmt.ins .call [.num 4096]).wellFormed = false ∧ (Stmt.ins .ld [.i, .num 4096]).wellFormed = false := by decide

theorem test_wordOk_refuses_65536 : (Stmt.dw 65536).wellFormed = false := by decide

theorem test_operandsOk_refuses_other_forms :
    (Stmt.ins .jp [.v 1, .num 0x300]).wellFormed = false ∧ (Stmt.ins .cls [.num 0]).wellFormed = false ∧
    (Stmt.ins .ld [.k, .v 1]).wellFormed = false ∧ (Stmt.ins .sub [.v 1, .num 5]).wellFormed = false := by decide

theorem test_labelOk_refuses :
    (Line.mk (some []) (.ins .cls [])).wellFormed = false ∧ (Line.mk (some ['1', 'a']) (.ins .cls [])).wellFormed = false ∧
    (Line.mk (some ['a', ' ']) (.ins .cls [])).wellFormed = false := by decide

theorem test_ill_formed_line_assembles_to_nothing :
    Line.assemble ⟨none, .ins .ld [.v 1, .num 256]⟩ = none ∧ Line.assemble ⟨some ['9'], .ins .cls []⟩ = none := by decide

theorem test_source_text :
    assembleText "loop: LD V3, K".toList = some [0xF3, 0x0A] ∧ assembleText "DRW V1, V2, 5".toList = some [0xD1, 0x25] ∧
    assembleText "DW 0x5121".toList = some [0x51, 0x21] := by decide

theorem test_disassembly_text :
    disassembleText 0xF165 = "LD V1, [I]".toList ∧ disassembleText 0x5121 = "DW 0x5121".toList := by decide

/-! ### Decoding: a word of each pattern of R73 -/

theorem test_decode_cls : decodeWord 0x00E0 = .ok .cls := rfl

theorem test_decode_ret : decodeWord 0x00EE = .ok .ret := rfl

theorem test_decode_jpAddr : decodeWord 0x1ABC = .ok (.jpAddr 0xABC) := rfl

theorem test_decode_callAddr : decodeWord 0x2ABC = .ok (.callAddr 0xABC) := rfl

theorem test_decode_seByte : decodeWord 0x3A7B = .ok (.seByte 0xA 0x7B) := rfl

theorem test_decode_sneByte : decodeWord 0x4A7B = .ok (.sneByte 0xA 0x7B) := rfl

theorem test_decode_seReg : decodeWord 0x5AB0 = .ok (.seReg 0xA 0xB) := rfl

theorem test_decode_ldByte : decodeWord 0x6A7B = .ok (.ldByte 0xA 0x7B) := rfl

theorem test_decode_addByte : decodeWord 0x7A7B = .ok (.addByte 0xA 0x7B) := rfl

theorem test_decode_ldReg : decodeWord 0x8AB0 = .ok (.ldReg 0xA 0xB) := rfl

theorem test_decode_orReg : decodeWord 0x8AB1 = .ok (.orReg 0xA 0xB) := rfl

theorem test_decode_andReg : decodeWord 0x8AB2 = .ok (.andReg 0xA 0xB) := rfl

theorem test_decode_xorReg : decodeWord 0x8AB3 = .ok (.xorReg 0xA 0xB) := rfl

theorem test_decode_addReg : decodeWord 0x8AB4 = .ok (.addReg 0xA 0xB) := rfl

theorem test_decode_subReg : decodeWord 0x8AB5 = .ok (.subReg 0xA 0xB) := rfl

theorem test_decode_shrReg : decodeWord 0x8AB6 = .ok (.shrReg 0xA 0xB) := rfl

theorem test_decode_subnReg : decodeWord 0x8AB7 = .ok (.subnReg 0xA 0xB) := rfl

theorem test_decode_shlReg : decodeWord 0x8ABE = .ok (.shlReg 0xA 0xB) := rfl

theorem test_decode_sneReg : decodeWord 0x9AB0 = .ok (.sneReg 0xA 0xB) := rfl

theorem test_decode_ldI : decodeWord 0xAABC = .ok (.ldI 0xABC) := rfl

theorem test_decode_jpV0 : decodeWord 0xBABC = .ok (.jpV0 0xABC) := rfl

theorem test_decode_rnd : decodeWord 0xCA7B = .ok (.rnd 0xA 0x7B) := rfl

theorem test_decode_drw : decodeWord 0xDAB7 = .ok (.drw 0xA 0xB 7) := rfl

theorem test_decode_skp : decodeWord 0xEA9E = .ok (.skp 0xA) := rfl

theorem test_decode_sknp : decodeWord 0xEAA1 = .ok (.sknp 0xA) := rfl

theorem test_decode_ldVxDt : decodeWord 0xFA07 = .ok (.ldVxDt 0xA) := rfl

theorem test_decode_ldVxK : decodeWord 0xFA0A = .ok (.ldVxK 0xA) := rfl

theorem test_decode_ldDtVx : decodeWord 0xFA15 = .ok (.ldDtVx 0xA) := rfl

theorem test_decode_ldStVx : decodeWord 0xFA18 = .ok (.ldStVx 0xA) := rfl

theorem test_decode_addI : decodeWord 0xFA1E = .ok (.addI 0xA) := rfl

theorem test_decode_ldF : decodeWord 0xFA29 = .ok (.ldF 0xA) := rfl

theorem test_decode_ldB : decodeWord 0xFA33 = .ok (.ldB 0xA) := rfl

theorem test_decode_storeRegs : decodeWord 0xFA55 = .ok (.storeRegs 0xA) := rfl

theorem test_decode_loadRegs : decodeWord 0xFA65 = .ok (.loadRegs 0xA) := rfl

theorem test_decode_bytes_big_endian : decodeBytes [0xD1, 0x2F, 0x00] = .ok (.drw 1 2 15, [0x00]) ∧
    decodeBytes [0xD1] = .error .truncated ∧ decodeTableWord 16 0xD12F = some (.drw 1 2 15) := ⟨rfl, rfl, rfl⟩

/-- T3, T4, T5. -/
theorem test_decode_refuses : ([0x5121, 0x9121, 0x812F, 0x8128, 0xE1A2, 0xF1FF, 0x00EF, 0x0123].map decodeWord) =
    [.error .group5, .error .group9, .error .group8, .error .group8, .error .groupE, .error .groupF, .error .group0,
      .error .group0] := rfl

/-! ### One cycle: the vectors of spec/95_test_vectors.md -/

/-- Set registers. -/
def withV (l : List (Nibble × Byte)) (s : State) : State := l.foldl (fun s p => s.setV p.1 p.2) s

/-- Reset with I and registers set, and bytes placed at I. -/
def start (i : Word) (v : List (Nibble × Byte)) (bytes : List Byte) : State :=
  let s := withV v (State.reset.setI i)
  s.setMem (copyBytes s.mem i.toNat bytes)

/-- The state after one cycle on a word, with RAND given. -/
def afterRand (rand : Byte) (w : Word) (s : State) : State :=
  match cycle rand (s.placeWord w) with
  | .next t => t
  | _ => s

/-- The state after one cycle on a word, with RAND 0. -/
def after (w : Word) (s : State) : State := afterRand 0 w s

/-- The four fault registers, as ReadStatus gives them. -/
def status (s : State) : FaultCause × Word × Word × Word := (s.faultCause, s.faultPc, s.faultOpcode, s.faultInfo)

/-- E9. -/
theorem test_cls :
    let t := after 0x00E0 { State.reset with fb := Vector.replicate 32 0xFFFFFFFFFFFFFFFF#64, redraw := false }
    t.fb = Vector.replicate 32 0 ∧ t.redraw = true ∧ t.pc = 0x202 := by decide

/-- T20. -/
theorem test_drw_clips :
    let t := after 0xD121 { start 0x300 [(1, 62), (2, 31), (15, 1)] [0xFF] with redraw := false }
    t.fb[31] = 3#64 <<< 62 ∧ t.fb[0] = 0 ∧ t.readV 15 = 0 ∧ t.redraw = true := by decide

/-- T30: x = y. -/
theorem test_drw_collides :
    let s := start 0x300 [(0, 4)] [0xA0]
    let t := after 0xD001 { s with fb := s.fb.set 4 (1#64 <<< 4) }
    t.fb[4] = 1#64 <<< 6 ∧ t.readV 15 = 1 ∧ t.pc = 0x202 := by decide

/-- T44. -/
theorem test_ret :
    let t := after 0x00EE { State.reset with sp := 16, stack := State.reset.stack.set 15 0x300 }
    t.sp.val = 15 ∧ t.pc = 0x302 ∧ t.stack[15] = 0x300 := by decide

/-- T40, T126. -/
theorem test_ret_empty :
    let t := after 0x00EE { State.reset with dt := 4 }
    status t = (.stackUnderflow, 0x200, 0x00EE, 0) ∧ t.dt = 4 ∧ t.events = [.fault .stackUnderflow 0x200 0] := by decide

/-- T45. -/
theorem test_jpAddr :
    (after 0x1FFF State.reset).pc = 0xFFF := by decide

/-- T42. -/
theorem test_callAddr :
    let t := after 0x2300 { State.reset with sp := 15 }
    t.stack[15] = 0x200 ∧ t.sp.val = 16 ∧ t.pc = 0x300 := by decide

/-- T43. -/
theorem test_callAddr_full :
    let t := after 0x2300 { State.reset with sp := 16 }
    status t = (.stackOverflow, 0x200, 0x2300, 16) ∧ t.sp.val = 16 ∧ t.pc = 0x200 := by decide

/-- T47. -/
theorem test_seByte :
    (after 0x3307 (withV [(3, 7)] State.reset)).pc = 0x204 ∧ (after 0x3308 (withV [(3, 7)] State.reset)).pc = 0x202 := by decide

/-- T48. -/
theorem test_sneByte :
    (after 0x4307 (withV [(3, 7)] State.reset)).pc = 0x202 ∧ (after 0x4308 (withV [(3, 7)] State.reset)).pc = 0x204 := by decide

/-- T49, T50. -/
theorem test_seReg :
    (after 0x5120 (withV [(1, 9), (2, 9)] State.reset)).pc = 0x204 ∧ (after 0x5110 (withV [(1, 9)] State.reset)).pc = 0x204 := by decide

/-- T49, T50. -/
theorem test_sneReg :
    (after 0x9120 (withV [(1, 9), (2, 9)] State.reset)).pc = 0x202 ∧ (after 0x9110 (withV [(1, 9)] State.reset)).pc = 0x202 := by decide

/-- T53. -/
theorem test_jpV0 :
    (after 0xBFFF (withV [(0, 0xFF)] State.reset)).pc = 0x10FE := by decide

/-- T60. -/
theorem test_ldByte :
    (after 0x6AFF State.reset).readV 10 = 0xFF := by decide

/-- T61, T62. -/
theorem test_addByte :
    let t := after 0x7001 (withV [(0, 0xFF)] State.reset)
    t.readV 0 = 0 ∧ t.readV 15 = 0 ∧ (after 0x7FFF (withV [(15, 1)] State.reset)).readV 15 = 0 := by decide

/-- T63. -/
theorem test_ldReg :
    (after 0x8120 (withV [(2, 0x33)] State.reset)).readV 1 = 0x33 := by decide

/-- T64. -/
theorem test_orReg :
    (after 0x8121 (withV [(1, 0x0F), (2, 0xF0)] State.reset)).readV 1 = 0xFF := by decide

/-- T64. -/
theorem test_andReg :
    (after 0x8122 (withV [(1, 0x3C), (2, 0x0F)] State.reset)).readV 1 = 0x0C := by decide

/-- T64, T65. -/
theorem test_xorReg :
    (after 0x8123 (withV [(1, 0xFF), (2, 0x0F)] State.reset)).readV 1 = 0xF0 ∧
    (after 0x8113 (withV [(1, 0x5A)] State.reset)).readV 1 = 0 := by decide

/-- E2. -/
theorem test_addReg :
    let t := after 0x8124 (withV [(1, 250), (2, 10), (15, 0x55)] State.reset)
    t.readV 1 = 4 ∧ t.readV 15 = 0x55 ∧ (after 0x8334 (withV [(3, 250)] State.reset)).readV 3 = 244 := by decide

/-- E3, T66. -/
theorem test_subReg :
    let t := after 0x8125 (withV [(1, 5), (2, 10)] State.reset)
    let u := after 0x8125 (withV [(1, 10), (2, 10)] State.reset)
    t.readV 15 = 0 ∧ t.readV 1 = 251 ∧ u.readV 15 = 1 ∧ u.readV 1 = 0 := by decide

/-- T68, T69, T71. -/
theorem test_subReg_vf :
    let t := after 0x81F5 (withV [(1, 10)] State.reset)
    (after 0x8F15 (withV [(15, 7), (1, 3)] State.reset)).readV 15 = 254 ∧ t.readV 15 = 1 ∧ t.readV 1 = 9 ∧
      (after 0x8FF5 (withV [(15, 9)] State.reset)).readV 15 = 0 := by decide

/-- T76, T77. -/
theorem test_shrReg :
    let t := after 0x8106 (withV [(1, 5), (15, 0x77)] State.reset)
    t.readV 1 = 2 ∧ t.readV 15 = 0x77 ∧ (after 0x8F06 (withV [(15, 0xFF)] State.reset)).readV 15 = 0x7F := by decide

/-- T72. -/
theorem test_subnReg :
    let t := after 0x8127 (withV [(1, 10), (2, 5)] State.reset)
    let u := after 0x8127 (withV [(1, 5), (2, 10)] State.reset)
    t.readV 15 = 0 ∧ t.readV 1 = 251 ∧ u.readV 15 = 1 ∧ u.readV 1 = 5 := by decide

/-- T73, T74. -/
theorem test_subnReg_vf :
    let t := after 0x81F7 (withV [(1, 3), (15, 7)] State.reset)
    (after 0x8F17 (withV [(15, 7), (1, 3)] State.reset)).readV 15 = 3 ∧ t.readV 15 = 1 ∧ t.readV 1 = 254 := by decide

/-- T78. -/
theorem test_shlReg :
    let t := after 0x810E (withV [(1, 0x81)] State.reset)
    t.readV 15 = 1 ∧ t.readV 1 = 2 := by decide

/-- T80. -/
theorem test_shlReg_vf :
    (after 0x8F0E (withV [(15, 0x80)] State.reset)).readV 15 = 2 ∧ (after 0x8F0E (withV [(15, 0x7F)] State.reset)).readV 15 = 0 := by decide

/-- T81, T82. -/
theorem test_rnd :
    (afterRand 0xA7 0xC10F State.reset).readV 1 = 0x07 ∧ (afterRand 0xA7 0xC1F0 State.reset).readV 1 = 0xA0 := by decide

/-- T90. -/
theorem test_ldI :
    (after 0xAFFF State.reset).i = 0xFFF := by decide

/-- T92, T93. -/
theorem test_addI :
    let t := after 0xF21E (withV [(2, 3)] (State.reset.setI 0xFFE))
    let u := after 0xF11E (withV [(1, 2)] (State.reset.setI 0xFFFF))
    t.i = 0x1001 ∧ t.readV 15 = 1 ∧ u.i = 1 ∧ u.readV 15 = 1 := by decide

/-- T94, T95. -/
theorem test_addI_vf :
    (after 0xFF1E (withV [(15, 1)] (State.reset.setI 0xFFF))).i = 0x1000 ∧
    (after 0xFF1E (withV [(15, 5)] (State.reset.setI 0x100))).i = 0x100 := by decide

/-- T96. -/
theorem test_ldF :
    (after 0xF029 (withV [(0, 0xF)] State.reset)).i = 0x4B ∧ (after 0xF029 (withV [(0, 0xFF)] State.reset)).i = 0x4FB := by decide

/-- E4, T98. -/
theorem test_ldB :
    let t := after 0xF033 (start 0x300 [(0, 234)] [])
    let u := after 0xF033 (start 0xFFD [(0, 255)] [])
    t.mem.read 0x300 = 2 ∧ t.mem.read 0x301 = 3 ∧ t.mem.read 0x302 = 4 ∧ t.i = 0x300 ∧ u.mem.read 0xFFF = 5 := by decide

/-- T99. -/
theorem test_ldB_outside :
    let t := after 0xF033 (start 0xFFE [(0, 255)] [])
    status t = (.dataOob, 0x200, 0xF033, 0x1000) ∧ t.mem.read 0xFFE = 0 ∧ t.pc = 0x200 := by decide

/-- T101, T107. -/
theorem test_storeRegs :
    let t := after 0xF155 (start 0x300 [(0, 1), (1, 2)] [])
    t.mem.read 0x300 = 1 ∧ t.mem.read 0x301 = 2 ∧ t.i = 0x302 ∧ (after 0xF055 (start 0 [(0, 0xAA)] [])).mem.read 0 = 0xAA := by decide

/-- T102, T103. -/
theorem test_storeRegs_edge :
    let t := after 0xFF55 (start 0xFF0 [(15, 0x5F)] [])
    t.mem.read 0xFFF = 0x5F ∧ t.i = 0x1000 ∧
      status (after 0xFF55 (start 0xFF1 [] [])) = (.dataOob, 0x200, 0xFF55, 0x1000) := by decide

/-- T106. -/
theorem test_loadRegs :
    let t := after 0xF265 (start 0x300 [(3, 9)] [2, 3, 4, 5])
    t.readV 0 = 2 ∧ t.readV 1 = 3 ∧ t.readV 2 = 4 ∧ t.readV 3 = 9 ∧ t.i = 0x303 := by decide

/-- T110, T113. -/
theorem test_skp :
    (after 0xE19E (withV [(1, 10)] { State.reset with keys := 0x400 })).pc = 0x204 ∧
    status (after 0xE19E (withV [(1, 16)] State.reset)) = (.keyIndex, 0x200, 0xE19E, 16) := by decide

/-- T112, T114. -/
theorem test_sknp :
    (after 0xE1A1 (withV [(1, 2)] { State.reset with keys := 4 })).pc = 0x202 ∧
    (after 0xE1A1 (withV [(1, 2)] State.reset)).pc = 0x204 ∧
    status (after 0xE1A1 (withV [(1, 0xFF)] State.reset)) = (.keyIndex, 0x200, 0xE1A1, 0xFF) := by decide

/-- T115. -/
theorem test_ldVxDt :
    let t := after 0xF307 { State.reset with dt := 10 }
    t.readV 3 = 10 ∧ t.dt = 9 := by decide

/-- T117. -/
theorem test_ldVxK :
    let t := after 0xF20A { State.reset with keys := 0x8009 }
    t.readV 2 = 15 ∧ t.pc = 0x202 := by decide

/-- T119. -/
theorem test_ldVxK_blocks :
    let t := after 0xF20A { State.reset with dt := 5, st := 5 }
    t.events = [.waiting] ∧ t.pc = 0x200 ∧ t.dt = 5 ∧ t.st = 5 := by decide

/-- T120. -/
theorem test_ldDtVx :
    (after 0xF015 (withV [(0, 60)] { State.reset with dt := 9 })).dt = 59 ∧ (after 0xF015 { State.reset with dt := 9 }).dt = 0 := by decide

/-- T121, T123. -/
theorem test_ldStVx :
    let t := after 0xF018 (withV [(0, 1)] State.reset)
    let u := after 0xF018 { State.reset with st := 1 }
    t.st = 0 ∧ t.events = [.beep] ∧ u.st = 0 ∧ u.events = [] := by decide

/-- T2. -/
theorem test_unrecognized_word_runs_the_timers :
    let t := after 0x00E1 { State.reset with dt := 3, st := 1 }
    t.events = [.illegalOpcode 0x200 0x00E1, .beep] ∧ t.pc = 0x200 ∧ t.dt = 2 ∧ t.st = 0 := by decide

/-- T1: what stands at 0x200 after Initialize is no instruction. -/
theorem test_fetch_reset : State.reset.fetch = some 0 ∧ decodeWord 0 = .error .group0 := ⟨rfl, rfl⟩

/-- The next state of an answer. -/
def nextOf : Answer → Option State
  | .next t => some t
  | _ => none

/-- T7, T9: a fetch at 0xFFF faults, and the halted core stays as it is. -/
theorem test_fetch_outside :
    (nextOf (cycle 0 { State.reset with pc := 0xFFF })).map status = some (.fetchOob, 0xFFF, 0, 0xFFF) ∧
    (nextOf (cycle 0 { State.reset with faultCause := .fetchOob, dt := 4 })).map (fun t => (t.events, t.dt))
      = some ([.halted], 4) := by decide

/-- T132 and the byte order of a loaded word. -/
theorem test_load :
    (State.reset.load []).mem = State.reset.mem ∧ (State.reset.load [0x12, 0x34]).fetch = some 0x1234 := by decide

/-- The word `withFetchWord` stores is the one the next step runs. -/
theorem test_withFetchWord :
    (nextOf (step (State.reset.withFetchWord 16 0x6A7B))).map (fun t => (t.readV 10, t.pc)) = some (0x7B, 0x202) := by decide

/-! ### Witnesses: the hypotheses of each statement that has any are met, at the ends of their ranges -/

/-- EncodingTheDecodedWordGivesTheWord. -/
theorem witness_decoded_word : decodeWord 0xDAB7 = .ok (.drw 0xA 0xB 7) := rfl

/-- WordDecodesToARowExactlyWhenItMatches: a row, a word that matches it and a word that does not. -/
theorem witness_row : ⟨7, 0xF00F, 0x5000, .XYF⟩ ∈ opcodeTable ∧ (0x5AB0#16 &&& 0xF00F) = 0x5000 ∧
    (0x5AB1#16 &&& 0xF00F) ≠ 0x5000 := by decide

/-- RowsAreDisjointAndMatch43954Words: a row of the table matches a word (and so does the same row). -/
theorem witness_matching_row : ∃ row ∈ opcodeTable, row.matches 0xF065 = true := ⟨⟨34, 0xF0FF, 0xF065, .XF⟩, by decide⟩

/-- UnrecognizedWordsAreTheSixClasses: words at the ends of each class. -/
theorem witness_unrecognized_classes :
    decodeWord 0x0000 = .error .group0 ∧ decodeWord 0x0FFF = .error .group0 ∧ decodeWord 0x5001 = .error .group5 ∧
    decodeWord 0x5FFF = .error .group5 ∧ decodeWord 0x8008 = .error .group8 ∧ decodeWord 0x8FFF = .error .group8 ∧
    decodeWord 0x9001 = .error .group9 ∧ decodeWord 0x9FFF = .error .group9 ∧ decodeWord 0xE000 = .error .groupE ∧
    decodeWord 0xEFFF = .error .groupE ∧ decodeWord 0xF000 = .error .groupF ∧ decodeWord 0xFFFF = .error .groupF :=
  ⟨rfl, rfl, rfl, rfl, rfl, rfl, rfl, rfl, rfl, rfl, rfl, rfl⟩

/-- A core halted by FETCH_OOB at 0xFFF. -/
def haltedCore : State := { State.reset with pc := 0xFFF, faultCause := .fetchOob, faultPc := 0xFFF, faultInfo := 0xFFF }

/-- A running core whose pc is the last that can be fetched from, on a given word. -/
def lastFetch (w : Word) : State := { State.reset with pc := 0xFFE }.placeWord w

/-- CycleFetchesDecodesExecutesThenTicks: each clause. -/
theorem witness_cycle :
    haltedCore.faultCause ≠ .none ∧ ({ State.reset with pc := 0xFFF }.faultCause = .none ∧ 0xFFF > 0xFFE) ∧
    ((lastFetch 0x0000).faultCause = .none ∧ (lastFetch 0x0000).pc.toNat = 0xFFE ∧
      (0x0000#16).toNat = ((lastFetch 0x0000).mem.read 0xFFE).toNat * 256 + ((lastFetch 0x0000).mem.read 0xFFF).toNat) ∧
    decodeWord 0x0000 = .error .group0 ∧
    (0x1200#16).toNat = ((lastFetch 0x1200).mem.read 0xFFE).toNat * 256 + ((lastFetch 0x1200).mem.read 0xFFF).toNat ∧
    decodeWord 0x1200 = .ok (.jpAddr 0x200) ∧ ∃ u, exec (.jpAddr 0x200) (lastFetch 0x1200) = .next u :=
  ⟨by decide, by decide, by decide, rfl, by decide, rfl, _, rfl⟩

/-- StepRunsTheDecodedInstruction. -/
theorem witness_step :
    (lastFetch 0x1200).faultCause = .none ∧ (lastFetch 0x1200).pc.toNat ≤ 0xFFE ∧
    decodeBytes [(lastFetch 0x1200).mem.read (lastFetch 0x1200).pc.toNat,
      (lastFetch 0x1200).mem.read ((lastFetch 0x1200).pc.toNat + 1)] = .ok (.jpAddr 0x200, []) ∧
    ∃ u, exec (.jpAddr 0x200) { lastFetch 0x1200 with
      rand := Config.randByte (lastFetch 0x1200).inputs, inputs := (lastFetch 0x1200).inputs + 1, events := [] } = .next u :=
  ⟨by decide, by decide, rfl, _, rfl⟩

/-- HaltedCoreOnlyEmitsHaltedUntilInitialize: a halted core, another operation than Initialize, a Load of the largest size. -/
theorem witness_halted :
    haltedCore.faultCause ≠ .none ∧ haltedCore.mem.wf = true ∧ HostOp.ackRedraw ≠ .init ∧
    (List.replicate 3583 (0 : Byte)).length < 3584 ∧ (∃ t, hostOp .ackRedraw haltedCore = .next t) ∧
    ∃ t, hostOp (.load (List.replicate 3583 0)) haltedCore = .next t :=
  ⟨by decide, by decide, by decide, by have := List.length_replicate (n := 3583) (a := (0 : Byte)); omega, ⟨_, rfl⟩, _, rfl⟩

/-- UnrecognizedOpcodeIsALoggedNoOp. -/
theorem witness_unrecognized :
    State.reset.faultCause = .none ∧ State.reset.fetch = some 0 ∧ decodeWord 0 = .error .group0 := ⟨rfl, rfl, rfl⟩

/-- FaultingCycleOnlyEntersTheFault: a return with an empty stack, and a fetch at 0xFFF. -/
theorem witness_faulting_cycle :
    (lastFetch 0x00EE).faultCause = .none ∧ (lastFetch 0x00EE).fetch = some 0x00EE ∧
    (nextOf (cycle 0 (lastFetch 0x00EE))).map (·.faultCause) = some .stackUnderflow ∧
    (nextOf (cycle 0 { State.reset with pc := 0xFFF })).map (·.faultCause) = some .fetchOob := by decide

/-- InstructionFaultsAsTheCauseTableSays: each row of the table at the edge of its condition, and the state next to it. -/
theorem witness_cause_table :
    (start 0xFF2 [] []).faultFor (.drw 1 2 15) = some (.dataOob, 0x1000) ∧ (start 0xFF1 [] []).faultFor (.drw 1 2 15) = none ∧
    (start 0xFFFF [] []).faultFor (.ldB 0) = some (.dataOob, 0xFFFF) ∧ (start 0xFFD [] []).faultFor (.ldB 0) = none ∧
    { State.reset with sp := 16 }.faultFor (.callAddr 0x300) = some (.stackOverflow, 16) ∧
    { State.reset with sp := 15 }.faultFor (.callAddr 0x300) = none ∧
    State.reset.faultFor .ret = some (.stackUnderflow, 0) ∧ { State.reset with sp := 1 }.faultFor .ret = none ∧
    (withV [(1, 16)] State.reset).faultFor (.skp 1) = some (.keyIndex, 16) ∧
    (withV [(1, 15)] State.reset).faultFor (.sknp 1) = none := by decide

/-- ClearStateStepsWithoutFault: a clear instruction, and an unrecognized word. -/
theorem witness_clear :
    (State.reset.placeWord 0x2300).faultCause = .none ∧ (State.reset.placeWord 0x2300).clear = true ∧
    State.reset.faultCause = .none ∧ State.reset.clear = true := by decide

/-- TimersCountOncePerCompletedInstruction: completed, blocked and faulting cycles. -/
theorem witness_timers :
    haltedCore.faultCause ≠ .none ∧ { State.reset with pc := 0xFFF }.fetch = none ∧
    State.reset.faultCause = .none ∧ (State.reset.placeWord 0xF018).fetch = some 0xF018 ∧
    (after 0xF018 (withV [(0, 1)] State.reset)).events = [.beep] ∧ (after 0xF00A State.reset).events = [.waiting] ∧
    (after 0x00EE State.reset).faultCause = .stackUnderflow := by decide

/-- EventsComeInOrder: each kind of event list. -/
theorem witness_events :
    (after 0x6000 State.reset).events = [] ∧ (after 0x0000 { State.reset with st := 1 }).events = [.illegalOpcode 0x200 0, .beep] ∧
    (after 0xF00A State.reset).events = [.waiting] ∧
    (after 0x00EE State.reset).events = [.fault .stackUnderflow 0x200 0] ∧
    (nextOf (cycle 0 haltedCore)).map (·.events) = some [.halted] := by decide

/-- OnlyRndReadsTheRandomInput: an instruction that does not, and a next state. -/
theorem witness_no_rand :
    (Instr.drw 1 2 3).readsRand = false ∧ (∃ t, exec (.drw 1 2 3) State.reset = .next t) ∧ ∃ t, cycle 7 State.reset = .next t :=
  ⟨rfl, ⟨_, rfl⟩, _, rfl⟩

theorem reset_stack : ∀ e ∈ State.reset.stack.toList, e.toNat ≤ 0xFFE := by
  intro e he
  simp [State.reset, State.resetWith] at he
  simp [he]

/-- StepKeepsTheInvariant, HostOperationKeepsTheInvariant: a running and a halted state that meet the invariant. -/
theorem witness_invariant : State.reset.Inv ∧ haltedCore.Inv :=
  ⟨⟨rfl, by decide, reset_stack, rfl, rfl, rfl⟩, ⟨rfl, by decide, reset_stack, rfl, rfl, rfl, by decide⟩⟩

/-- The same statements: a step and a host operation that answer. -/
theorem witness_answers : (nextOf (step State.reset)).isSome = true ∧ (nextOf (hostOp (.setKeys 5) haltedCore)).isSome = true := by
  decide

/-- InstructionWritesOnlyItsListedRegisters: the registers on either side of LD V7, [I]. -/
theorem witness_unlisted_register :
    (Instr.loadRegs 7).writesV 8 = false ∧ (Instr.loadRegs 7).writesV 7 = true ∧ (Instr.subReg 1 2).writesV 2 = false ∧
    ∃ t, exec (.loadRegs 7) State.reset = .next t := ⟨by decide, by decide, by decide, _, rfl⟩

/-- InstructionWritesNoOtherState: the premise of each clause. -/
theorem witness_other_state :
    (Instr.ldB 1).writesI = false ∧ (Instr.loadRegs 1).writesM = false ∧ (Instr.ldB 1).draws = false ∧
    ((Instr.drw 1 2 0).draws = true ∧ (State.reset.setI 0xFFFF).faultFor (.drw 1 2 0) = none) ∧
    (∀ a, Instr.ret ≠ .callAddr a) ∧ Instr.cls ≠ .ret ∧ (∀ x, Instr.ldStVx 1 ≠ .ldDtVx x) ∧ (∀ x, Instr.ldDtVx 1 ≠ .ldStVx x) ∧
    ∃ t, exec (.loadRegs 1) State.reset = .next t :=
  ⟨rfl, rfl, rfl, by decide, by simp, by simp, by simp, by simp, _, rfl⟩

/-- PcAdvancesByThePolicy: a fault, none, and the two cycles that leave the pc. -/
theorem witness_pc_policy :
    State.reset.faultFor .ret ≠ none ∧ State.reset.faultFor (.jpAddr 1) = none ∧ (∃ t, exec .ret State.reset = .next t) ∧
    (∃ t, exec (.jpAddr 1) State.reset = .next t) ∧ { State.reset with pc := 0xFFF }.fetch = none ∧
    State.reset.faultCause = .none ∧ State.reset.fetch = some 0 ∧ decodeWord 0 = .error .group0 ∧
    (∃ t, cycle 0 State.reset = .next t) ∧ ∃ t, cycle 0 { State.reset with pc := 0xFFF } = .next t :=
  ⟨by decide, by decide, ⟨_, rfl⟩, ⟨_, rfl⟩, rfl, rfl, rfl, rfl, ⟨_, rfl⟩, _, rfl⟩

/-- DrawTogglesTheCoveredPixels: no row at any I, the last rows inside, the first row outside; and both values of VF. -/
theorem witness_draw :
    (0#4 = 0 ∧ (start 0xFFFF [] []).i.toNat = 0xFFFF) ∧ (start 0xFF1 [] []).i.toNat + (15#4).toNat - 1 = 0xFFF ∧
    ((15#4 ≠ 0) ∧ (start 0xFF2 [] []).i.toNat + (15#4).toNat - 1 > 0xFFF) ∧
    ((start 0x300 [] [0x80]).covers 0 0 1 0 = true ∧ pixel State.reset.fb 0 = false) ∧
    ((start 0x300 [] [0x80]).covers 0 0 1 0 = true ∧ pixel (Vector.replicate 32 1) 0 = true) := by decide

/-- DrawingTwiceRestoresTheFramebuffer. -/
theorem witness_draw_twice :
    (0#4 ≠ 15#4) ∧ (14#4 ≠ 15#4) ∧ (start 0x300 [] [0x80]).faultFor (.drw 0 14 1) = none ∧
    (∃ t, exec (.drw 0 14 1) (start 0x300 [] [0x80]) = .next t) ∧
    ((start 0x300 [] [0x80]).covers 0 14 1 0 = true ∧ pixel (start 0x300 [] [0x80]).fb 0 = false) :=
  ⟨by decide, by decide, by decide, ⟨_, rfl⟩, by decide⟩

/-- CallPushesItsAddressAndJumps, ReturnResumesAfterTheCall: the 16th call, and a 17th. -/
theorem witness_call :
    { State.reset with sp := 15 }.sp.val < 16 ∧ { State.reset with sp := 16 }.sp.val = 16 ∧
    ∃ t, exec (.callAddr 0x300) { State.reset with sp := 15 } = .next t := ⟨by decide, by decide, _, rfl⟩

/-- ReturnPopsAndGoesOnTwoPast: one entry, and none. -/
theorem witness_return : 0 < { State.reset with sp := 1 }.sp.val ∧ State.reset.sp.val = 0 := by decide

/-- SkipsGoOnByFourOrTwo: a condition that holds and one that does not. -/
theorem witness_skip : (State.reset.readV 3).toNat = (0#8).toNat ∧ (State.reset.readV 3).toNat ≠ (1#8).toNat := by decide

/-- The clauses of SubtractWritesNoBorrowThenDifference, ReverseSubtract…, ShiftLeft… and AddToIndex… on register numbers. -/
theorem witness_vf_operands :
    ((1#4 ≠ 15#4) ∧ (2#4 ≠ 15#4)) ∧ ((15#4 = 15#4) ∧ (2#4 ≠ 15#4)) ∧ ((1#4 ≠ 15#4) ∧ (15#4 = 15#4)) ∧
    ((14#4 = 14#4) ∧ (14#4 ≠ 15#4)) ∧ ((0#4 ≠ 14#4) ∧ (0#4 ≠ 15#4)) := by decide

/-- RandomByteIsMaskedByTheImmediate. -/
theorem witness_rand : (State.beginCycle State.reset 0xA7).rand = 0xA7 := rfl

/-- DecimalDigitsAreStoredAtI, StoredDigitsAreTheDecimalDigits: the last place inside, the first outside. -/
theorem witness_bcd :
    (start 0xFFD [(0, 255)] []).mem.wf = true ∧ (start 0xFFD [] []).i.toNat + 2 = 0xFFF ∧
    (start 0xFFE [] []).i.toNat + 2 > 0xFFF ∧ ∃ t, exec (.ldB 0) (start 0xFFD [(0, 255)] []) = .next t :=
  ⟨by decide, by decide, by decide, _, rfl⟩

/-- RegistersAreStoredFromI, RegistersAreLoadedFromI: 16 registers at the last place inside, and at the first outside. -/
theorem witness_register_block :
    (start 0xFF0 [] []).mem.wf = true ∧ (start 0xFF0 [] []).i.toNat + (15#4).toNat = 0xFFF ∧
    (start 0xFF1 [] []).i.toNat + (15#4).toNat > 0xFFF ∧ (15#4).toNat ≤ (15#4).toNat ∧ (14#4).toNat < (15#4).toNat := by decide

/-- RangeCheckGuardsEveryAccessThroughI: each instruction with its count, outside, inside, and with no byte. -/
theorem witness_range :
    (Instr.drw 1 2 0 = .drw 1 2 0 ∧ 0 = (0#4).toNat) ∧ (Instr.ldB 1 = .ldB 1 ∧ 3 = 3) ∧ 16 = (15#4).toNat + 1 ∧
    (1 ≤ 3 ∧ (start 0xFFE [] []).i.toNat + 3 - 1 > 0xFFF) ∧ (start 0xFFD [] []).i.toNat + 3 - 1 ≤ 0xFFF := by decide

/-- KeySkipsTestTheKey: the last key, pressed or not, and the first number that names none. -/
theorem witness_key_skip :
    ((withV [(1, 15)] State.reset).readV 1).toNat ≤ 15 ∧ ((withV [(1, 16)] State.reset).readV 1).toNat > 15 ∧
    (0x8000#16).getLsbD 15 = true ∧ State.reset.keys.getLsbD 15 = false := by decide

/-- KeyWaitTakesTheHighestKeyOrBlocks: the highest key at either end, and none. -/
theorem witness_key_wait :
    ((0x8009#16).getLsbD 15 = true ∧ ∀ j, j < 16 → (0x8009#16).getLsbD j = true → j ≤ 15) ∧
    ((1#16).getLsbD 0 = true ∧ ∀ j, j < 16 → (1#16).getLsbD j = true → j ≤ 0) ∧
    (∀ k, k < 16 → State.reset.keys.getLsbD k = false) := by decide

/-- BlockedCycleChangesNothing, PressingAKeyEndsTheWait. -/
theorem witness_blocked :
    (State.reset.placeWord 0xF30A).faultCause = .none ∧ (State.reset.placeWord 0xF30A).fetch = some (encode (.ldVxK 3)) ∧
    (State.reset.placeWord 0xF30A).keys = 0 ∧ (0x0800#16 ≠ 0) := by decide

/-- TimersAreLoadedFromVx. -/
theorem witness_timer_load :
    (State.reset.placeWord 0xF015).faultCause = .none ∧ (State.reset.placeWord 0xF015).fetch = some (encode (.ldDtVx 0)) ∧
    (State.reset.placeWord 0xFF18).fetch = some (encode (.ldStVx 15)) := by decide

/-- ByteAccessIsInsideMemoryOrRaises: the last address inside and the first outside. -/
theorem witness_byte_access : State.reset.mem.wf = true ∧ 0xFFF ≤ 0xFFF ∧ 0x1000 > 0xFFF := by decide

/-- StoreOverTheNextInstructionIsFetched: T11, a store whose last byte is 0xFFF, and the largest Load. -/
theorem witness_store_over_code :
    let s := (start 0x201 [(0, 123)] []).placeWord 0xF033
    let u := (start 0xFF0 [] []).placeWord 0xFF55
    (s.mem.wf = true ∧ s.faultCause = .none ∧ s.fetch = some (encode (.ldB 0)) ∧ s.i.toNat + 2 ≤ 0xFFF) ∧
    (u.mem.wf = true ∧ u.faultCause = .none ∧ u.fetch = some (encode (.storeRegs 15)) ∧ u.i.toNat + (15#4).toNat = 0xFFF) ∧
    (List.replicate 3583 (0 : Byte)).length < 3584 ∧ (0xFFE#16).toNat ≤ 0xFFE :=
  ⟨by decide, by decide, by have := List.length_replicate (n := 3583) (a := (0 : Byte)); omega, by decide⟩

/-- T11: the word LD B stores over the next instruction is the one fetched next. -/
theorem test_store_over_code : (after 0xF033 (start 0x201 [(0, 123)] [])).fetch = some 0x0203 := by decide

/-- ResetStateIsAsTheRuleSays: the first and last addresses of the zeroed region, the last pixel. -/
theorem witness_reset : (0x50 ≤ 0x50 ∧ 0x50 ≤ 0xFFF) ∧ (0x50 ≤ 0xFFF ∧ 0xFFF ≤ 0xFFF) ∧ 2047 < 2048 := by decide

/-- UnloadedCoreStallsAtTheEntryPoint: the state after Initialize, and one the timers and keys have moved on. -/
theorem witness_stalled :
    State.reset.stalledAtEntry ∧ { State.reset with dt := 3, st := 1, keys := 1, v := State.reset.v.set 3 7 }.stalledAtEntry :=
  ⟨⟨rfl, rfl, rfl, rfl⟩, rfl, rfl, rfl, rfl⟩

/-- UnloadedCoreStallsAtTheEntryPoint, LoadCopiesTheProgramOrRejectsIt: the largest accepted length and the least rejected. -/
theorem witness_load :
    State.reset.mem.wf = true ∧ (List.replicate 3583 (0 : Byte)).length < 3584 ∧
    3584 ≤ (List.replicate 3584 (0 : Byte)).length := 
  ⟨by decide, by have := List.length_replicate (n := 3583) (a := (0 : Byte)); omega,
    by have := List.length_replicate (n := 3584) (a := (0 : Byte)); omega⟩

/-- HostPortsDoOnlyWhatTheySay: a cycle with the flag set, and the two instructions that set it. -/
theorem witness_ports :
    (∃ t, cycle 0 State.reset = .next t) ∧ State.reset.redraw = true ∧ Instr.cls.draws = true ∧
    State.reset.faultFor .cls = none ∧ (Instr.drw 1 2 3).draws = true ∧ State.reset.faultFor (.drw 1 2 3) = none :=
  ⟨⟨_, rfl⟩, rfl, rfl, rfl, rfl, by decide⟩

end Sys2Proof.Tests
end

/-! PROOFS. The state (spec/10_state.md): what every instruction writes, how the pc goes on, and the invariant every
step keeps. -/

namespace Sys2Proof

/-! ### Encoding, then decoding -/

/-- Decoding is exact on encoded words, so a recorded fault opcode names the instruction that faulted (R74). -/
theorem decodeWord_encode (i : Instr) : decodeWord (encode i) = .ok i := by
  cases i
  case cls => rfl
  case ret => rfl
  all_goals simp [encode, decodeWord, decode8, decodeE, decodeF]

end Sys2Proof

namespace Sys2Proof.Machine

/-! ### An executed instruction -/

/-- An executed instruction enters the fault its condition names, or has its effect (spec/60_exceptions.md R221,
R229). -/
theorem exec_cases {i : Instr} {s t : State} (h : exec i s = .next t) :
    (∃ c n, s.faultFor i = some (c, n) ∧ t = faulted s c (encode i) (BitVec.ofNat 16 n)) ∨
    (s.faultFor i = none ∧ Effect i s t) := by
  cases hf : s.faultFor i with
  | some cn =>
    obtain ⟨c, n⟩ := cn
    rw [exec_fault i s c n hf] at h
    injection h with h
    exact .inl ⟨c, n, rfl, h.symm⟩
  | none =>
    obtain ⟨u, hu⟩ := exec_effect i s hf
    have htu : t = u := by simpa [hu.runs] using h.symm
    exact .inr ⟨rfl, htu ▸ hu⟩

/-- Settles O23: fault entry writes no register, and any other effect only the listed ones. -/
theorem instructionWritesOnlyItsListedRegisters : Obligations.InstructionWritesOnlyItsListedRegisters := by
  intro i s t r h hr
  obtain ⟨c, n, -, rfl⟩ | ⟨-, e⟩ := exec_cases h
  · rfl
  · exact e.v r hr

/-- Settles O24: fault entry writes the fault registers and the events only; any other effect keeps what `Effect`
lists. -/
theorem instructionWritesNoOtherState : Obligations.InstructionWritesNoOtherState := by
  intro i s t h
  obtain ⟨c, n, hf, rfl⟩ | ⟨-, e⟩ := exec_cases h
  · exact ⟨fun _ => rfl, fun _ => ⟨rfl, fun _ => rfl⟩, fun _ => ⟨rfl, rfl⟩, fun _ hn => by simp [hf] at hn,
      fun _ => rfl, fun _ _ => rfl, fun _ => rfl, fun _ => rfl, rfl, rfl, rfl, rfl⟩
  · exact ⟨e.index, fun hm => ⟨e.mem hm, fun a => by rw [e.mem hm]⟩, e.fb, fun hd _ => e.redraw hd, e.stack, e.sp, e.dt,
      e.st, e.keys, e.font, e.rand, e.inputs⟩

/-! ### The pc (spec/10_state.md R26, R27) -/

/-- The pc after an instruction that raises no fault, by the policy table of R26. -/
def State.pcAfter (s : State) : Instr → Word
  | .seByte x nn => (s.skipIf (s.readV x == nn)).pc
  | .sneByte x nn => (s.skipIf (s.readV x != nn)).pc
  | .seReg x y => (s.skipIf (s.readV x == s.readV y)).pc
  | .sneReg x y => (s.skipIf (s.readV x != s.readV y)).pc
  | .skp x => (s.skipIf (s.key (s.readV x).toNat)).pc
  | .sknp x => (s.skipIf (!s.key (s.readV x).toNat)).pc
  | .jpAddr a => zextAddr a
  | .jpV0 a => zextByte (s.readV 0) + zextAddr a
  | .callAddr a => zextAddr a
  | .ret => s.stack[s.sp.val - 1]'(by have := s.sp.isLt; omega) + 2
  | .ldVxK _ => if s.keys = 0 then s.pc else s.pc + 2
  | _ => s.pc + 2

/-- An instruction that raises no fault leaves the pc the policy table gives. -/
theorem exec_pc {i : Instr} {s t : State} (hf : s.faultFor i = none) (h : exec i s = .next t) : t.pc = s.pcAfter i := by
  cases i
  case ret =>
    have h0 : 0 < s.sp.val := by simp [State.faultFor] at hf; omega
    rw [exec_ret, dif_pos h0] at h
    cases h; rfl
  case callAddr a =>
    have h0 : s.sp.val < 16 := by simp [State.faultFor] at hf; omega
    rw [exec_callAddr, dif_pos h0] at h
    cases h; rfl
  case skp x =>
    have h0 : ¬ (s.readV x).toNat > 15 := by simpa [State.faultFor, State.keyFault] using hf
    rw [exec_skp, if_neg h0] at h
    cases h; rfl
  case sknp x =>
    have h0 : ¬ (s.readV x).toNat > 15 := by simpa [State.faultFor, State.keyFault] using hf
    rw [exec_sknp, if_neg h0] at h
    cases h; rfl
  case drw x y n =>
    rw [exec_drw, if_pos (dataFault_none s hf)] at h
    cases h; rfl
  case ldB x =>
    have h0 := dataFault_none s hf
    rw [exec_ldB, if_pos (by omega)] at h
    cases h; rfl
  case storeRegs x =>
    have h0 := dataFault_none s hf
    rw [exec_storeRegs, if_pos (by omega)] at h
    cases h; rfl
  case loadRegs x =>
    have h0 := dataFault_none s hf
    rw [exec_loadRegs, if_pos (by omega)] at h
    cases h; rfl
  case ldVxK x =>
    rw [exec_ldVxK] at h
    cases hk : highestKey s.keys with
    | none =>
      rw [hk] at h
      cases h
      simp [State.pcAfter, highestKey_none.1 hk]
    | some k =>
      rw [hk] at h
      cases h
      have hne : s.keys ≠ 0 := fun h0 => by simp [highestKey_none.2 h0] at hk
      exact (if_neg hne).symm
  all_goals cases h; rfl

theorem pcOn_of_eq {k : Nat} {s t : State} (hk : k < 65536) (h : t.pc = s.pc + BitVec.ofNat 16 k) : PcOn k s t := by
  rw [PcOn, h, BitVec.toNat_add, BitVec.toNat_ofNat, Nat.mod_eq_of_lt hk]

/-- The pc of a skip goes on by 4 when the tested condition holds, else by 2. -/
theorem pcOn_skipIf {c : Bool} {s t : State} (h : t.pc = (s.skipIf c).pc) : PcOn (if c then 4 else 2) s t := by
  cases c
  · exact pcOn_of_eq (k := 2) (by omega) h
  · exact pcOn_of_eq (k := 4) (by omega) h

@[simp] theorem zextAddr_toNat (a : Addr) : (zextAddr a).toNat = a.toNat := by
  have := a.isLt
  simp only [zextAddr, BitVec.toNat_setWidth]; omega

@[simp] theorem zextByte_toNat (b : Byte) : (zextByte b).toNat = b.toNat := by
  have := b.isLt
  simp only [zextByte, BitVec.toNat_setWidth]; omega

/-- The target of `JP V0` does not wrap: a byte plus a 12-bit address fits 16 bits (spec/41_flow.md R127). -/
theorem jpV0_target_toNat (b : Byte) (a : Addr) : (zextByte b + zextAddr a).toNat = b.toNat + a.toNat := by
  have := a.isLt
  have := b.isLt
  rw [BitVec.toNat_add, zextByte_toNat, zextAddr_toNat]; omega

/-- Settles O25: each row is read off `pcAfter`; a fault, a failed fetch and an unrecognized word keep the pc. -/
theorem pcAdvancesByThePolicy : Obligations.PcAdvancesByThePolicy := by
  refine ⟨fun i s t h => ⟨fun hf => ?_, fun hf => ?_⟩, fun r s t hrun h hno => ?_⟩
  · obtain ⟨c, n, -, rfl⟩ | ⟨hn, -⟩ := exec_cases h
    · rfl
    · exact absurd hn hf
  · have hpc := exec_pc hf h
    cases i
    case seByte x nn => simpa using pcOn_skipIf hpc
    case sneByte x nn => simpa using pcOn_skipIf hpc
    case seReg x y => simpa using pcOn_skipIf hpc
    case sneReg x y => simpa using pcOn_skipIf hpc
    case skp x => exact pcOn_skipIf hpc
    case sknp x => simpa only [Bool.not_eq_true', ← Bool.not_eq_true, ite_not] using pcOn_skipIf hpc
    case jpAddr a => exact hpc ▸ zextAddr_toNat a
    case jpV0 a => exact hpc ▸ jpV0_target_toNat (s.readV 0) a
    case callAddr a => exact hpc ▸ zextAddr_toNat a
    case ret =>
      refine ⟨_, Vector.getElem?_eq_getElem (by have := s.sp.isLt; omega), ?_⟩
      rw [hpc]
      exact BitVec.toNat_add _ _
    case ldVxK x =>
      by_cases hk : s.keys = 0
      · exact (if_pos hk).mpr (hpc.trans (if_pos hk))
      · exact (if_neg hk).mpr (pcOn_of_eq (by omega) (hpc.trans (if_neg hk)))
    all_goals exact pcOn_of_eq (by omega) hpc
  · obtain ⟨-, -, rfl⟩ | ⟨w, e, -, -, -, rfl⟩ | ⟨w, i, c, n, -, hw, hd, -, rfl⟩ | ⟨w, i, u, -, hw, hd, -, -, -⟩ :=
      cycle_cases hrun h
    · rfl
    · rfl
    · rfl
    · obtain hn | ⟨w', e, hw', he⟩ := hno
      · simp [hn] at hw
      · obtain rfl : w = w' := by simpa [hw] using hw'
        simp [hd] at he

/-! ### The invariant -/

/-- Each fault condition of the table of spec/60_exceptions.md R221, by its cause. -/
theorem faultFor_cases {s : State} {i : Instr} {c : FaultCause} {n : Nat} (h : s.faultFor i = some (c, n)) :
    (∃ a, i = .callAddr a ∧ s.sp.val = 16 ∧ c = .stackOverflow ∧ n = 16) ∨
    (i = .ret ∧ s.sp.val = 0 ∧ c = .stackUnderflow ∧ n = 0) ∨
    (∃ x, (i = .skp x ∨ i = .sknp x) ∧ 15 < (s.readV x).toNat ∧ c = .keyIndex ∧ n = (s.readV x).toNat) ∨
    (1 ≤ i.bytesThroughI ∧ 0x1000 < s.i.toNat + i.bytesThroughI ∧ c = .dataOob ∧ n = max s.i.toNat 0x1000) := by
  have key : ∀ x, s.keyFault x = some (c, n) →
      15 < (s.readV x).toNat ∧ c = .keyIndex ∧ n = (s.readV x).toNat := by
    intro x hx
    simp only [State.keyFault, Option.ite_none_right_eq_some, Option.some.injEq, Prod.mk.injEq] at hx
    obtain ⟨hgt, rfl, rfl⟩ := hx
    exact ⟨hgt, rfl, rfl⟩
  have data : ∀ k, s.dataFault k = some (c, n) →
      1 ≤ k ∧ 0x1000 < s.i.toNat + k ∧ c = .dataOob ∧ n = max s.i.toNat 0x1000 := by
    intro k hk
    obtain ⟨h0, hc, hn⟩ := dataFault_some s hk
    exact ⟨by omega, by omega, hc, hn⟩
  cases i
  case callAddr a =>
    simp only [State.faultFor, Option.ite_none_right_eq_some, Option.some.injEq, Prod.mk.injEq] at h
    obtain ⟨hsp, rfl, rfl⟩ := h
    exact .inl ⟨a, rfl, hsp, rfl, rfl⟩
  case ret =>
    simp only [State.faultFor, Option.ite_none_right_eq_some, Option.some.injEq, Prod.mk.injEq] at h
    obtain ⟨hsp, rfl, rfl⟩ := h
    exact .inr (.inl ⟨rfl, hsp, rfl, rfl⟩)
  case skp x => exact .inr (.inr (.inl ⟨x, .inl rfl, key x h⟩))
  case sknp x => exact .inr (.inr (.inl ⟨x, .inr rfl, key x h⟩))
  case drw x y k => exact .inr (.inr (.inr (data k.toNat h)))
  case ldB x => exact .inr (.inr (.inr (data 3 h)))
  case storeRegs x => exact .inr (.inr (.inr (data (x.toNat + 1) h)))
  case loadRegs x => exact .inr (.inr (.inr (data (x.toNat + 1) h)))
  all_goals simp [State.faultFor] at h

/-- Fault entry records what the table of R221 says for its cause. -/
theorem faulted_statusOk {s : State} {i : Instr} {c : FaultCause} {n : Nat} (h : s.faultFor i = some (c, n)) :
    (faulted s c (encode i) (BitVec.ofNat 16 n)).statusOk := by
  have hd := decodeWord_encode i
  obtain ⟨a, rfl, hsp, rfl, rfl⟩ | ⟨rfl, hsp, rfl, rfl⟩ | ⟨x, hi, hx, rfl, rfl⟩ | ⟨hk, ho, rfl, rfl⟩ := faultFor_cases h
  · exact ⟨rfl, ⟨a, hd⟩, rfl, hsp⟩
  · exact ⟨rfl, rfl, rfl, hsp⟩
  · have hinfo : (BitVec.ofNat 16 (s.readV x).toNat).toNat = (s.readV x).toNat := by
      rw [← zextByte_eq, zextByte_toNat]
    refine ⟨rfl, x, ?_, hx, hinfo⟩
    obtain rfl | rfl := hi
    · exact .inl hd
    · exact .inr hd
  · have hinfo : (BitVec.ofNat 16 (max s.i.toNat 0x1000)).toNat = max s.i.toNat 0x1000 := by
      have := s.i.isLt
      rw [BitVec.toNat_ofNat]; omega
    exact ⟨rfl, i, hd, hk, ho, hinfo⟩

/-- While no fault is recorded, the fault registers are all 0. -/
theorem statusOk_running {s : State} (h : s.faultCause = .none) :
    s.statusOk ↔ s.faultPc = 0 ∧ s.faultOpcode = 0 ∧ s.faultInfo = 0 := by
  simp only [State.statusOk, h]

/-- An effect leaves the fault registers, so a running core's stay as they were. -/
theorem Effect.statusOk {i : Instr} {s t : State} (e : Effect i s t) (hrun : s.faultCause = .none) (h : s.statusOk) :
    t.statusOk := by
  rw [statusOk_running hrun] at h
  rw [statusOk_running (e.faultCause.trans hrun), e.faultPc, e.faultOpcode, e.faultInfo]
  exact h

/-- The pc after an instruction fetched at 0xFFE or below is at most 0x10FE, which `JP V0` reaches (R27). -/
theorem pcAfter_le {s : State} (hpc : s.pc.toNat ≤ 0xFFE) (hstack : ∀ e ∈ s.stack.toList, e.toNat ≤ 0xFFE) (i : Instr) :
    (s.pcAfter i).toNat ≤ 0x10FE := by
  have two : (s.pc + 2).toNat ≤ 0x10FE := by bv_omega
  have skip : ∀ c, (s.skipIf c).pc.toNat ≤ 0x10FE := by
    intro c
    cases c
    · exact two
    · show (s.pc + 4).toNat ≤ 0x10FE
      bv_omega
  have target : ∀ a, (zextAddr a).toNat ≤ 0x10FE := by
    intro a
    have := a.isLt
    rw [zextAddr_toNat]; omega
  cases i
  case seByte x nn => exact skip _
  case sneByte x nn => exact skip _
  case seReg x y => exact skip _
  case sneReg x y => exact skip _
  case skp x => exact skip _
  case sknp x => exact skip _
  case jpAddr a => exact target a
  case callAddr a => exact target a
  case jpV0 a =>
    have := a.isLt
    have := (s.readV 0).isLt
    simp only [State.pcAfter, jpV0_target_toNat]; omega
  case ret =>
    have hlt : s.sp.val - 1 < 16 := by have := s.sp.isLt; omega
    have he : s.stack[s.sp.val - 1].toNat ≤ 0xFFE :=
      hstack _ (Vector.mem_toList_iff.2 (Vector.getElem_mem hlt))
    show (s.stack[s.sp.val - 1] + 2).toNat ≤ 0x10FE
    bv_omega
  case ldVxK x =>
    simp only [State.pcAfter]
    split
    · omega
    · exact two
  all_goals exact two

/-- The one entry an instruction may write is a call's own address, so each entry stays at most 0xFFE (R222). -/
theorem Effect.stack_le {i : Instr} {s t : State} (e : Effect i s t) (hpc : s.pc.toNat ≤ 0xFFE)
    (hstack : ∀ w ∈ s.stack.toList, w.toNat ≤ 0xFFE) : ∀ w ∈ t.stack.toList, w.toNat ≤ 0xFFE := by
  by_cases hi : ∃ a, i = .callAddr a
  · obtain ⟨a, rfl⟩ := hi
    have hrun := e.runs
    rw [exec_callAddr] at hrun
    split at hrun
    · cases hrun
      intro w hw
      have hset : w ∈ s.stack.set s.sp.val s.pc := Vector.mem_toList_iff.1 hw
      obtain hw | rfl := Vector.mem_or_eq_of_mem_set hset
      · exact hstack w (Vector.mem_toList_iff.2 hw)
      · exact hpc
    · cases hrun
      exact hstack
  · rw [e.stack fun a ha => hi ⟨a, ha⟩]
    exact hstack

/-- An instruction that raises no fault keeps the invariant of a running core. -/
theorem Effect.inv {i : Instr} {s t : State} (e : Effect i s t) (hf : s.faultFor i = none) (hrun : s.faultCause = .none)
    (hpc : s.pc.toNat ≤ 0xFFE) (h : s.Inv) : t.Inv := by
  obtain ⟨hwf, -, hstack, hst⟩ := h
  refine ⟨e.wf hwf, ?_, e.stack_le hpc hstack, e.statusOk hrun hst⟩
  rw [exec_pc hf e.runs]
  exact pcAfter_le hpc hstack i

/-- The invariant does not read the timers, so the timer step keeps it. -/
theorem inv_ticked (s : State) : (ticked s).Inv ↔ s.Inv := Iff.rfl

/-- Nor does it read the ports of a Cycle. -/
theorem inv_ports (s : State) (r : Byte) (n : Nat) (es : List Event) :
    { s with rand := r, inputs := n, events := es }.Inv ↔ s.Inv := Iff.rfl

/-- A Cycle keeps the invariant, whatever its RAND: halted it changes the ports only, and running it goes one of the
four ways of `cycle_cases`. -/
theorem cycle_keeps_inv {r : Byte} {s t : State} (h : s.Inv) (ht : cycle r s = .next t) : t.Inv := by
  by_cases hrun : s.faultCause = .none
  · have hb : { s with rand := r, events := [] }.Inv := (inv_ports s r s.inputs []).2 h
    obtain ⟨hwf, hpc, hstack, -⟩ := h
    obtain ⟨-, hout, rfl⟩ | ⟨w, e, -, -, -, rfl⟩ | ⟨w, i, c, n, -, -, -, hf, rfl⟩ | ⟨w, i, u, hin, -, -, hf, e, ht⟩ :=
      cycle_cases hrun ht
    · exact ⟨hwf, hpc, hstack, rfl, rfl, rfl, hout⟩
    · exact (inv_ticked _).2 hb
    · exact ⟨hwf, hpc, hstack, faulted_statusOk (s := { s with rand := r, events := [] }) hf⟩
    · have hu : u.Inv := e.inv hf hrun hin hb
      obtain ⟨-, rfl⟩ | ⟨rfl, -⟩ := ht
      · exact (inv_ticked u).2 hu
      · exact hu
  · rw [cycle_halted r s hrun] at ht
    cases ht
    exact (inv_ports s r s.inputs _).2 h

/-- Settles O20: a step is a Cycle of the state with the next input taken. -/
theorem stepKeepsTheInvariant : Obligations.StepKeepsTheInvariant := by
  intro s t h ht
  exact cycle_keeps_inv ((inv_ports s s.rand (s.inputs + 1) s.events).2 h) ht

end Sys2Proof.Machine

/-! PROOFS. Memory (spec/20_memory.md): byte access, Load, what a fetch reads after a store, the stall with no program, and
the invariant over every host operation and every session. -/

namespace Sys2Proof.Machine

/-! ### Byte access (spec/20_memory.md R53, R54) -/

/-- Settles O52: the range test decides the access, and a byte written inside keeps the canonical form. -/
theorem byteAccessIsInsideMemoryOrRaises : Obligations.ByteAccessIsInsideMemoryOrRaises := by
  intro m a b hwf
  refine ⟨fun ha => ⟨if_pos ha, m.write a b, if_pos ha, ?_⟩, fun ha => ?_⟩
  · exact ⟨Memory.read_write_same hwf a b, fun a' hne => Memory.read_write_other m b hne, Memory.write_wf hwf b ha⟩
  · have hout : ¬ a ≤ 0xFFF := Nat.not_le.2 ha
    exact ⟨if_neg hout, if_neg hout⟩

/-! ### Load (spec/20_memory.md R63, R64) -/

/-- A program of at most 3583 bytes is copied to 0x200 on. -/
theorem load_accepted (s : State) {buf : List Byte} (h : buf.length < 3584) :
    s.load buf = { s with mem := copyBytes s.mem 0x200 buf, events := [] } := if_pos h

/-- A longer one is rejected. -/
theorem load_rejected (s : State) {buf : List Byte} (h : 3584 ≤ buf.length) :
    s.load buf = { s with events := [.loadRejected buf.length] } := if_neg (Nat.not_lt.2 h)

/-- Settles O57: an accepted Load is one copy, whose bytes end below 0x1000; a rejected one touches the events only. -/
theorem loadCopiesTheProgramOrRejectsIt : Obligations.LoadCopiesTheProgramOrRejectsIt := by
  intro s buf hwf
  refine ⟨fun h => ⟨_, congrArg Host.Outcome.next (load_accepted s h), ?_, ?_, rfl⟩,
    fun h => congrArg Host.Outcome.next (load_rejected s h)⟩
  · exact read_copyBytes_inside hwf 0x200 buf (by omega)
  · intro a ha
    exact read_copyBytes_outside s.mem 0x200 buf ha

/-! ### Fetch after a store (spec/20_memory.md R62) -/

/-- After a copy of bytes inside memory, every fetch reads them where they lie. -/
theorem fetchesOver_copyBytes {base : Nat} {bs : List Byte} {s t : State} (hwf : s.mem.wf = true)
    (hl : base + bs.length ≤ 0x1000) (ht : t.mem = copyBytes s.mem base bs) : FetchesOver base bs s t := by
  intro p hp
  rw [fetch_inside _ hp]
  simp only [ht, read_copyBytes hwf base bs hl]

/-- A cycle whose instruction stores bytes from I on and goes to the next instruction: the core keeps running, and every
fetch reads the bytes. -/
theorem cycle_store {r : Byte} {i : Instr} {bs : List Byte} {s u : State} (hwf : s.mem.wf = true)
    (hrun : s.faultCause = .none) (hf : s.fetch = some (encode i)) (hl : s.i.toNat + bs.length ≤ 0x1000)
    (hx : exec i { s with rand := r, events := [] } = .next u) (hcause : u.faultCause = .none) (hev : u.events = [])
    (hpc : u.pc = s.pc + 2) (hmem : u.mem = copyBytes s.mem s.i.toNat bs) :
    ∃ t, cycle r s = .next t ∧ t.faultCause = .none ∧ PcOn 2 s t ∧ FetchesOver s.i.toNat bs s t := by
  have hcycle : cycle r s = .next (ticked u) := by
    rw [cycle_exec r s u hrun _ hf i (decodeWord_encode i) hx, if_neg (by simp [hcause, hev])]
  exact ⟨ticked u, hcycle, hcause, pcOn_of_eq (by omega) hpc, fetchesOver_copyBytes hwf hl hmem⟩

/-- The bytes LD B stores are the decimal digits of R183. -/
theorem bcdBytes_eq_digits (v : Byte) :
    bcdBytes v = [v.toNat / 100, v.toNat / 10 % 10, v.toNat % 10].map (BitVec.ofNat 8) := by
  simp only [bcdBytes, List.map_cons, List.map_nil, Nat.mod_mod_of_dvd v.toNat (show 10 ∣ 100 by decide)]

/-- The bytes LD [I], Vx stores, register by register. -/
theorem firstRegs_eq_map_readV (s : State) (x : Nibble) :
    s.firstRegs (x.toNat + 1) = (List.range (x.toNat + 1)).map fun j => s.readV (BitVec.ofNat 4 j) := by
  apply List.ext_getElem
  · simp
  · intro j hj _
    have hx := x.isLt
    have hj' : (BitVec.ofNat 4 j).toNat = j := by
      rw [firstRegs_length_nibble] at hj
      exact Nat.mod_eq_of_lt (by omega)
    simp only [List.getElem_map, List.getElem_range, State.firstRegs, State.readV, hj', List.getElem_take,
      Vector.getElem_toList]

/-- Settles O53: the two stores and an accepted Load are each one copy, and a fetch reads through a copy. -/
theorem storeOverTheNextInstructionIsFetched : Obligations.StoreOverTheNextInstructionIsFetched := by
  intro r x s hwf
  refine ⟨fun hrun hf hi => ?_, fun hrun hf hi => ?_, fun buf hlen => ?_⟩
  · have hx := (exec_ldB x { s with rand := r, events := [] }).trans (if_pos (show s.i.toNat + 3 ≤ 0x1000 by omega))
    rw [← bcdBytes_eq_digits]
    exact cycle_store hwf hrun hf (by rw [bcdBytes_length]; omega) hx hrun rfl rfl rfl
  · have hx := (exec_storeRegs x { s with rand := r, events := [] }).trans
      (if_pos (show s.i.toNat + (x.toNat + 1) ≤ 0x1000 by omega))
    rw [← firstRegs_eq_map_readV]
    exact cycle_store hwf hrun hf (by rw [firstRegs_length_nibble]; omega) hx hrun rfl rfl rfl
  · exact ⟨_, congrArg Host.Outcome.next (load_accepted s hlen), rfl, rfl, fetchesOver_copyBytes hwf (by omega) rfl⟩

/-! ### The stall with no program (spec/20_memory.md R65) -/

/-- A core with no program fetches the word 0x0000. -/
theorem State.stalledAtEntry.fetch {s : State} (h : s.stalledAtEntry) : s.fetch = some 0 := by
  obtain ⟨-, hpc, hhi, hlo⟩ := h
  have hpc' : s.pc.toNat = 0x200 := congrArg BitVec.toNat hpc
  rw [fetch_inside s (by omega), hpc', hhi, hlo]
  rfl

/-- 0x0000 is an unrecognized word, so the Cycle emits ILLEGAL_OPCODE and counts the timers (spec/30_encoding.md R75). -/
theorem cycle_stalled (r : Byte) {s : State} (h : s.stalledAtEntry) :
    cycle r s = .next (ticked { s with rand := r, events := [.illegalOpcode 0x200 0] }) := by
  have ⟨hrun, hpc, _, _⟩ := h
  rw [cycle_illegal r s hrun 0 h.fetch .group0 rfl, hpc]

/-- Settles O56: `stalledAtEntry` reads neither the timers, which a stalled Cycle counts, nor the events, which a rejected
Load sets. -/
theorem unloadedCoreStallsAtTheEntryPoint : Obligations.UnloadedCoreStallsAtTheEntryPoint := by
  refine ⟨fun r s h => ?_, fun font => ⟨rfl, rfl, rfl, rfl⟩,
    fun s buf hlen h => ⟨_, congrArg Host.Outcome.next (load_rejected s hlen), h⟩⟩
  exact ⟨_, cycle_stalled r h, h, List.mem_append_left _ (List.mem_singleton.2 rfl), rfl⟩

/-! ### Every host operation and every session (spec/20_memory.md R60, spec/60_exceptions.md R240) -/

/-- The state after Initialize meets the invariant: no byte is listed, the pc is 0x200, and every stack entry is 0. -/
theorem resetWith_inv (font : Font) : (State.resetWith font).Inv := by
  refine ⟨Memory.resetWith_wf font, (by decide : (0x200 : Word).toNat ≤ 0x10FE), fun e he => ?_, rfl, rfl, rfl⟩
  obtain rfl : e = 0 := Vector.eq_of_mem_replicate (Vector.mem_toList_iff.1 he)
  decide

/-- Load keeps the invariant: an accepted program ends inside memory, and nothing else the invariant reads changes. -/
theorem load_inv {s : State} (h : s.Inv) (buf : List Byte) : (s.load buf).Inv := by
  by_cases hlen : buf.length < 3584
  · obtain ⟨hwf, hrest⟩ := h
    rw [load_accepted s hlen]
    exact ⟨copyBytes_wf hwf 0x200 buf (by omega), hrest⟩
  · rw [load_rejected s (by omega)]
    exact h

/-- Settles O21: Initialize, Load and Cycle by their own lemmas; the others write nothing the invariant reads. -/
theorem hostOperationKeepsTheInvariant : Obligations.HostOperationKeepsTheInvariant := by
  intro op s t h ht
  cases op with
  | init => cases ht; exact resetWith_inv s.mem.font
  | load buf => cases ht; exact load_inv h buf
  | setKeys k => cases ht; exact h
  | cycle r => exact cycle_keeps_inv h ht
  | readFrame => cases ht; exact h
  | ackRedraw => cases ht; exact h
  | readStatus => cases ht; exact h

/-- Every instruction answers a next state. -/
theorem exec_answers (i : Instr) (s : State) : ∃ t, exec i s = .next t := by
  cases hf : s.faultFor i with
  | some cn => exact ⟨_, exec_fault i s cn.1 cn.2 hf⟩
  | none =>
    obtain ⟨t, e⟩ := exec_effect i s hf
    exact ⟨t, e.runs⟩

/-- Every Cycle answers a next state. -/
theorem cycle_answers (r : Byte) (s : State) : ∃ t, cycle r s = .next t := by
  by_cases hrun : s.faultCause = .none
  · by_cases hpc : s.pc.toNat ≤ 0xFFE
    · have hw := fetch_inside s hpc
      generalize wordOfBytes _ _ = w at hw
      cases hd : decodeWord w with
      | error e => exact ⟨_, cycle_illegal r s hrun w hw e hd⟩
      | ok i =>
        obtain ⟨u, hu⟩ := exec_answers i { s with rand := r, events := [] }
        exact ⟨_, cycle_exec r s u hrun w hw i hd hu⟩
    · exact ⟨_, cycle_fetchOob r s hrun (by omega)⟩
  · exact ⟨_, cycle_halted r s hrun⟩

/-- No Cycle changes the parameter FONT. -/
theorem cycle_font {r : Byte} {s t : State} (ht : cycle r s = .next t) : t.mem.font = s.mem.font := by
  by_cases hrun : s.faultCause = .none
  · obtain ⟨-, -, rfl⟩ | ⟨w, e, -, -, -, rfl⟩ | ⟨w, i, c, n, -, -, -, -, rfl⟩ | ⟨w, i, u, -, -, -, -, e, hu⟩ :=
      cycle_cases hrun ht
    · rfl
    · rfl
    · rfl
    · obtain ⟨-, rfl⟩ | ⟨rfl, -⟩ := hu
      · exact e.font
      · exact e.font
  · rw [cycle_halted r s hrun] at ht
    cases ht
    rfl

/-- Load writes bytes over the FONT, never the parameter itself. -/
theorem load_font (s : State) (buf : List Byte) : (s.load buf).mem.font = s.mem.font := by
  by_cases hlen : buf.length < 3584
  · rw [load_accepted s hlen]
    exact copyBytes_font s.mem 0x200 buf
  · rw [load_rejected s (by omega)]

/-- Every host operation answers a next state with the same FONT. -/
theorem hostOp_answers (op : HostOp) (s : State) : ∃ t, hostOp op s = .next t ∧ t.mem.font = s.mem.font := by
  cases op with
  | cycle r =>
    obtain ⟨t, ht⟩ := cycle_answers r s
    exact ⟨t, ht, cycle_font ht⟩
  | load buf => exact ⟨_, rfl, load_font s buf⟩
  | init => exact ⟨_, rfl, rfl⟩
  | setKeys k => exact ⟨_, rfl, rfl⟩
  | readFrame => exact ⟨_, rfl, rfl⟩
  | ackRedraw => exact ⟨_, rfl, rfl⟩
  | readStatus => exact ⟨_, rfl, rfl⟩

/-- What every host operation keeps, every session keeps: induction over its operations. -/
theorem session_keeps {P : State → Prop}
    (hop : ∀ op s, P s → ∃ t, hostOp op s = .next t ∧ P t) (ops : List HostOp) (s : State) (h : P s) :
    ∃ t, session ops s = .next t ∧ P t := by
  induction ops generalizing s with
  | nil => exact ⟨s, rfl, h⟩
  | cons op ops ih =>
    obtain ⟨u, hu, hPu⟩ := hop op s h
    rw [session, hu]
    exact ih u hPu

/-- Settles O22: Initialize leaves the invariant and the FONT, and every operation keeps both. -/
theorem everyReachableStateMeetsTheInvariant : Obligations.EveryReachableStateMeetsTheInvariant := by
  intro font ops
  refine session_keeps (P := fun s => s.Inv ∧ s.mem.font = font) (fun op s h => ?_) ops _ ⟨resetWith_inv font, rfl⟩
  obtain ⟨hinv, hfont⟩ := h
  obtain ⟨t, ht, htf⟩ := hostOp_answers op s
  exact ⟨t, ht, hostOperationKeepsTheInvariant op s t hinv ht, htf.trans hfont⟩

end Sys2Proof.Machine

/-! PROOFS. Encoding (spec/30_encoding.md): decode and encode are inverse, decode follows the opcode table, the classes of
unrecognized words, assembly, and the cycle that fetches and runs a word. -/

namespace Sys2Proof

/-! ### What a word decodes to (spec/30_encoding.md R73 to R75) -/

/-- Decoding from two bytes or more is decoding their word; the rest is handed back (R70). -/
theorem decodeBytes_eq_ok {hi lo : Byte} {rest rest' : List Byte} {i : Instr} :
    decodeBytes (hi :: lo :: rest) = .ok (i, rest') ↔ decodeWord (wordOfBytes hi lo) = .ok i ∧ rest' = rest := by
  simp only [decodeBytes]
  cases decodeWord (wordOfBytes hi lo) <;> simp [eq_comm]

/-- Settles O1: the two bytes of an instruction are those of its word, and the word decodes to it. -/
theorem decodingTheEncodedBytesGivesTheInstruction : Obligations.DecodingTheEncodedBytesGivesTheInstruction := by
  intro i rest
  refine decodeBytes_eq_ok.2 ⟨?_, rfl⟩
  rw [wordOfBytes_high_low]
  exact decodeWord_encode i

/-- The words of each class of R75. -/
def Reject.covers (w : Word) : Reject → Prop
  | .truncated => False
  | .group0 => w.toNat < 0x1000 ∧ w ≠ 0x00E0 ∧ w ≠ 0x00EE
  | .group5 => w.toNat / 4096 = 5 ∧ w.toNat % 16 ≠ 0
  | .group8 => w.toNat / 4096 = 8 ∧ w.toNat % 16 ∈ [8, 9, 10, 11, 12, 13, 15]
  | .group9 => w.toNat / 4096 = 9 ∧ w.toNat % 16 ≠ 0
  | .groupE => w.toNat / 4096 = 14 ∧ w.toNat % 256 ∉ [0x9E, 0xA1]
  | .groupF => w.toNat / 4096 = 15 ∧ w.toNat % 256 ∉ [0x07, 0x0A, 0x15, 0x18, 0x1E, 0x29, 0x33, 0x55, 0x65]

/-- What the decoder may answer on a word: the instruction with that word, or a class the word is in. -/
def DecodesSoundly (w : Word) : Except Reject Instr → Prop
  | .ok i => encode i = w
  | .error e => e.covers w

theorem toNat_of_fieldG {w : Word} {g : Nibble} (h : fieldG w = g) : w.toNat / 4096 = g.toNat := h ▸ (fieldG_toNat w).symm

theorem fieldN_eq_zero {w : Word} : fieldN w = 0 ↔ w.toNat % 16 = 0 := by
  rw [← fieldN_toNat, BitVec.toNat_eq]; rfl

/-- A word of group g is g packed with its address field. -/
theorem packA_group {w : Word} {g : Nibble} (h : fieldG w = g) : packA g (fieldNNN w) = w := h ▸ packA_fields w

/-- A word of group g with the last byte nn is g packed with its register and nn. -/
theorem packXB_group {w : Word} {g : Nibble} {nn : Byte} (h : fieldG w = g) (hnn : fieldNN w = nn) :
    packXB g (fieldX w) nn = w := h ▸ hnn ▸ packXB_fields w

/-- A word of group g with the last nibble n is g packed with its two registers and n. -/
theorem packXYN_group {w : Word} {g n : Nibble} (h : fieldG w = g) (hn : fieldN w = n) :
    packXYN g (fieldX w) (fieldY w) n = w := h ▸ hn ▸ packXYN_fields w

/-- Group 0 decodes to its two words only. -/
theorem decode0_sound {w : Word} (hg : fieldG w = 0) : DecodesSoundly w (decode0 w) := by
  unfold decode0
  split
  next hcls => exact hcls.symm
  next hcls =>
    split
    next hret => exact hret.symm
    next hret => exact ⟨(Nat.div_eq_zero_iff_lt (by decide)).1 (toNat_of_fieldG hg), hcls, hret⟩

theorem decode8_sound {w : Word} (hg : fieldG w = 8) : DecodesSoundly w (decode8 (fieldX w) (fieldY w) (fieldN w)) := by
  unfold decode8
  split
  iterate 9 next hn => exact packXYN_group hg hn
  next =>
    refine ⟨toNat_of_fieldG hg, ?_⟩
    simp only [imp_false, List.mem_cons, List.not_mem_nil, or_false, ← fieldN_toNat] at *
    bv_omega

theorem decodeE_sound {w : Word} (hg : fieldG w = 0xE) : DecodesSoundly w (decodeE (fieldX w) (fieldNN w)) := by
  unfold decodeE
  split
  iterate 2 next hn => exact packXB_group hg hn
  next =>
    refine ⟨toNat_of_fieldG hg, ?_⟩
    simp only [imp_false, List.mem_cons, List.not_mem_nil, or_false, ← fieldNN_toNat] at *
    bv_omega

theorem decodeF_sound {w : Word} (hg : fieldG w = 0xF) : DecodesSoundly w (decodeF (fieldX w) (fieldNN w)) := by
  unfold decodeF
  split
  iterate 9 next hn => exact packXB_group hg hn
  next =>
    refine ⟨toNat_of_fieldG hg, ?_⟩
    simp only [imp_false, List.mem_cons, List.not_mem_nil, or_false, ← fieldNN_toNat] at *
    bv_omega

/-- The decoder is sound on every word: one case for each group, in order. -/
theorem decodeWord_sound (w : Word) : DecodesSoundly w (decodeWord w) := by
  unfold decodeWord
  split
  next hg => exact decode0_sound hg
  iterate 2 next hg => exact packA_group hg
  iterate 2 next hg => exact packXB_group hg rfl
  next hg =>
    split
    next hn => exact packXYN_group hg hn
    next hn => exact ⟨toNat_of_fieldG hg, mt fieldN_eq_zero.2 hn⟩
  iterate 2 next hg => exact packXB_group hg rfl
  next hg => exact decode8_sound hg
  next hg =>
    split
    next hn => exact packXYN_group hg hn
    next hn => exact ⟨toNat_of_fieldG hg, mt fieldN_eq_zero.2 hn⟩
  iterate 2 next hg => exact packA_group hg
  next hg => exact packXB_group hg rfl
  next hg => exact packXYN_group hg rfl
  next hg => exact decodeE_sound hg
  next =>
    refine decodeF_sound ?_
    simp only [imp_false] at *
    bv_omega

theorem fieldG_of_toNat {w : Word} {g : Nibble} (h : w.toNat / 4096 = g.toNat) : fieldG w = g :=
  BitVec.eq_of_toNat_eq ((fieldG_toNat w).trans h)

theorem decode8_rejects {x y n : Nibble} (h : n.toNat ∈ [8, 9, 10, 11, 12, 13, 15]) :
    decode8 x y n = .error .group8 := by
  unfold decode8
  split
  iterate 9 next => simp at h
  rfl

theorem decodeE_rejects {x : Nibble} {nn : Byte} (h : nn.toNat ∉ [0x9E, 0xA1]) : decodeE x nn = .error .groupE := by
  unfold decodeE
  split
  iterate 2 next => simp at h
  rfl

theorem decodeF_rejects {x : Nibble} {nn : Byte}
    (h : nn.toNat ∉ [0x07, 0x0A, 0x15, 0x18, 0x1E, 0x29, 0x33, 0x55, 0x65]) : decodeF x nn = .error .groupF := by
  unfold decodeF
  split
  iterate 9 next => simp at h
  rfl

/-- Every word of a class is rejected under its name. -/
theorem decodeWord_of_covers {w : Word} {e : Reject} (h : e.covers w) : decodeWord w = .error e := by
  cases e with
  | truncated => exact h.elim
  | group0 =>
    obtain ⟨hlt, hcls, hret⟩ := h
    rw [decodeWord, fieldG_of_toNat (g := 0#4) (Nat.div_eq_of_lt hlt)]
    exact (if_neg hcls).trans (if_neg hret)
  | group5 =>
    rw [decodeWord, fieldG_of_toNat (g := 5#4) h.1]
    exact if_neg (mt fieldN_eq_zero.1 h.2)
  | group8 =>
    rw [decodeWord, fieldG_of_toNat (g := 8#4) h.1]
    exact decode8_rejects (fieldN_toNat w ▸ h.2)
  | group9 =>
    rw [decodeWord, fieldG_of_toNat (g := 9#4) h.1]
    exact if_neg (mt fieldN_eq_zero.1 h.2)
  | groupE =>
    rw [decodeWord, fieldG_of_toNat (g := 0xE#4) h.1]
    exact decodeE_rejects (fieldNN_toNat w ▸ h.2)
  | groupF =>
    rw [decodeWord, fieldG_of_toNat (g := 0xF#4) h.1]
    exact decodeF_rejects (fieldNN_toNat w ▸ h.2)

/-- A word is rejected under the name of the class it is in, and under no other. -/
theorem decodeWord_eq_error {w : Word} {e : Reject} : decodeWord w = .error e ↔ e.covers w :=
  ⟨fun h => by simpa [h, DecodesSoundly] using decodeWord_sound w, decodeWord_of_covers⟩

/-- A word decodes to the instruction it encodes, and to no other (R74). -/
theorem decodeWord_eq_ok {w : Word} {i : Instr} : decodeWord w = .ok i ↔ encode i = w :=
  ⟨fun h => by simpa [h, DecodesSoundly] using decodeWord_sound w, fun h => h ▸ decodeWord_encode i⟩

/-- Settles O2: whatever group the word is in, its instruction packs the fields the decoder took. -/
theorem encodingTheDecodedWordGivesTheWord : Obligations.EncodingTheDecodedWordGivesTheWord :=
  fun _ _ => decodeWord_eq_ok.1

/-- Settles O5: the answer of the decoder is sound, and each class is rejected. -/
theorem unrecognizedWordsAreTheSixClasses : Obligations.UnrecognizedWordsAreTheSixClasses := fun _ =>
  ⟨decodeWord_eq_error, decodeWord_eq_error, decodeWord_eq_error, decodeWord_eq_error, decodeWord_eq_error,
    decodeWord_eq_error, decodeWord_eq_error.1⟩

/-- Settles O6: each word is the pattern of its instruction with the fields filled in. -/
theorem wordsOfThePatternsDecode : Obligations.WordsOfThePatternsDecode :=
  ⟨decodeWord_encode .cls, decodeWord_encode (.drw 1 2 15), decodeWord_encode .ret, decodeWord_encode (.callAddr 0x210),
    decodeWord_encode (.subReg 10 7), decodeWord_encode (.rnd 1 0x0F), decodeWord_encode (.loadRegs 2),
    decodeWord_encode (.sknp 11)⟩

/-! ### The opcode table (spec/30_encoding.md R73, R74, R81) -/

/-- The rows of the table have different numbers. -/
theorem row_eq_of_number : ∀ r₁ ∈ opcodeTable, ∀ r₂ ∈ opcodeTable, r₁.number = r₂.number → r₁ = r₂ := by decide

/-- Every instruction's word matches its row of the table. -/
theorem encode_matches_row : ∀ i : Instr, Laws.EncodingRow.Statement i
  | .cls => Laws.EncodingRow.cls
  | .ret => Laws.EncodingRow.ret
  | .jpAddr nnn => Laws.EncodingRow.jpAddr nnn
  | .callAddr nnn => Laws.EncodingRow.callAddr nnn
  | .seByte x nn => Laws.EncodingRow.seByte x nn
  | .sneByte x nn => Laws.EncodingRow.sneByte x nn
  | .seReg x y => Laws.EncodingRow.seReg x y
  | .ldByte x nn => Laws.EncodingRow.ldByte x nn
  | .addByte x nn => Laws.EncodingRow.addByte x nn
  | .ldReg x y => Laws.EncodingRow.ldReg x y
  | .orReg x y => Laws.EncodingRow.orReg x y
  | .andReg x y => Laws.EncodingRow.andReg x y
  | .xorReg x y => Laws.EncodingRow.xorReg x y
  | .addReg x y => Laws.EncodingRow.addReg x y
  | .subReg x y => Laws.EncodingRow.subReg x y
  | .shrReg x y => Laws.EncodingRow.shrReg x y
  | .subnReg x y => Laws.EncodingRow.subnReg x y
  | .shlReg x y => Laws.EncodingRow.shlReg x y
  | .sneReg x y => Laws.EncodingRow.sneReg x y
  | .ldI nnn => Laws.EncodingRow.ldI nnn
  | .jpV0 nnn => Laws.EncodingRow.jpV0 nnn
  | .rnd x nn => Laws.EncodingRow.rnd x nn
  | .drw x y n => Laws.EncodingRow.drw x y n
  | .skp x => Laws.EncodingRow.skp x
  | .sknp x => Laws.EncodingRow.sknp x
  | .ldVxDt x => Laws.EncodingRow.ldVxDt x
  | .ldVxK x => Laws.EncodingRow.ldVxK x
  | .ldDtVx x => Laws.EncodingRow.ldDtVx x
  | .ldStVx x => Laws.EncodingRow.ldStVx x
  | .addI x => Laws.EncodingRow.addI x
  | .ldF x => Laws.EncodingRow.ldF x
  | .ldB x => Laws.EncodingRow.ldB x
  | .storeRegs x => Laws.EncodingRow.storeRegs x
  | .loadRegs x => Laws.EncodingRow.loadRegs x

/-! The masks of the formats keep the fixed fields of any word. -/

theorem and_maskA (w : Word) : w &&& packA 0xF 0 = packA (fieldG w) 0 := by
  simpa only [packA_fields] using packA_mask (fieldG w) (fieldNNN w)

theorem and_maskXB (w : Word) : w &&& packXB 0xF 0 0 = packXB (fieldG w) 0 0 := by
  simpa only [packXB_fields] using packXB_mask (fieldG w) (fieldX w) (fieldNN w)

theorem and_maskXF (w : Word) : w &&& packXB 0xF 0 0xFF = packXB (fieldG w) 0 (fieldNN w) := by
  simpa only [packXB_fields] using packXF_mask (fieldG w) (fieldX w) (fieldNN w)

theorem and_maskXYN (w : Word) : w &&& packXYN 0xF 0 0 0 = packXYN (fieldG w) 0 0 0 := by
  simpa only [packXYN_fields] using packXYN_mask (fieldG w) (fieldX w) (fieldY w) (fieldN w)

theorem and_maskXYF (w : Word) : w &&& packXYN 0xF 0 0 0xF = packXYN (fieldG w) 0 0 (fieldN w) := by
  simpa only [packXYN_fields] using packXYF_mask (fieldG w) (fieldX w) (fieldY w) (fieldN w)

/-! So a word that keeps a pattern's fixed fields is the pattern with the word's own fields filled in. -/

theorem packA_of_masked {w : Word} {g : Nibble} (h : w &&& packA 0xF 0 = packA g 0) : packA g (fieldNNN w) = w := by
  have hg := congrArg fieldG ((and_maskA w).symm.trans h)
  rw [fieldG_packA, fieldG_packA] at hg
  exact packA_group hg

theorem packXB_of_masked {w : Word} {g : Nibble} (h : w &&& packXB 0xF 0 0 = packXB g 0 0) :
    packXB g (fieldX w) (fieldNN w) = w := by
  have hg := congrArg fieldG ((and_maskXB w).symm.trans h)
  rw [fieldG_packXB, fieldG_packXB] at hg
  exact packXB_group hg rfl

theorem packXF_of_masked {w : Word} {g : Nibble} {nn : Byte} (h : w &&& packXB 0xF 0 0xFF = packXB g 0 nn) :
    packXB g (fieldX w) nn = w := by
  have hg := congrArg fieldG ((and_maskXF w).symm.trans h)
  have hnn := congrArg fieldNN ((and_maskXF w).symm.trans h)
  rw [fieldG_packXB, fieldG_packXB] at hg
  rw [fieldNN_packXB, fieldNN_packXB] at hnn
  exact packXB_group hg hnn

theorem packXYN_of_masked {w : Word} {g : Nibble} (h : w &&& packXYN 0xF 0 0 0 = packXYN g 0 0 0) :
    packXYN g (fieldX w) (fieldY w) (fieldN w) = w := by
  have hg := congrArg fieldG ((and_maskXYN w).symm.trans h)
  rw [fieldG_packXYN, fieldG_packXYN] at hg
  exact packXYN_group hg rfl

theorem packXYF_of_masked {w : Word} {g n : Nibble} (h : w &&& packXYN 0xF 0 0 0xF = packXYN g 0 0 n) :
    packXYN g (fieldX w) (fieldY w) n = w := by
  have hg := congrArg fieldG ((and_maskXYF w).symm.trans h)
  have hn := congrArg fieldN ((and_maskXYF w).symm.trans h)
  rw [fieldG_packXYN, fieldG_packXYN] at hg
  rw [fieldN_packXYN, fieldN_packXYN] at hn
  exact packXYN_group hg hn

/-- A word that matches a row is the word of an instruction of that row: the row's pattern with the word's own fields
filled in. -/
theorem encodes_of_match (w : Word) : ∀ row ∈ opcodeTable, w &&& row.mask = row.value →
    ∃ i, encode i = w ∧ i.rowNumber = row.number := by
  simp only [opcodeTable, opcodeTableLow, opcodeTableHigh, List.cons_append, List.nil_append, List.forall_mem_cons]
  exact ⟨fun h => ⟨.cls, h.symm.trans BitVec.and_allOnes, rfl⟩,
    fun h => ⟨.ret, h.symm.trans BitVec.and_allOnes, rfl⟩,
    fun h => ⟨.jpAddr _, packA_of_masked h, rfl⟩,
    fun h => ⟨.callAddr _, packA_of_masked h, rfl⟩,
    fun h => ⟨.seByte _ _, packXB_of_masked h, rfl⟩,
    fun h => ⟨.sneByte _ _, packXB_of_masked h, rfl⟩,
    fun h => ⟨.seReg _ _, packXYF_of_masked h, rfl⟩,
    fun h => ⟨.ldByte _ _, packXB_of_masked h, rfl⟩,
    fun h => ⟨.addByte _ _, packXB_of_masked h, rfl⟩,
    fun h => ⟨.ldReg _ _, packXYF_of_masked h, rfl⟩,
    fun h => ⟨.orReg _ _, packXYF_of_masked h, rfl⟩,
    fun h => ⟨.andReg _ _, packXYF_of_masked h, rfl⟩,
    fun h => ⟨.xorReg _ _, packXYF_of_masked h, rfl⟩,
    fun h => ⟨.addReg _ _, packXYF_of_masked h, rfl⟩,
    fun h => ⟨.subReg _ _, packXYF_of_masked h, rfl⟩,
    fun h => ⟨.shrReg _ _, packXYF_of_masked h, rfl⟩,
    fun h => ⟨.subnReg _ _, packXYF_of_masked h, rfl⟩,
    fun h => ⟨.shlReg _ _, packXYF_of_masked h, rfl⟩,
    fun h => ⟨.sneReg _ _, packXYF_of_masked h, rfl⟩,
    fun h => ⟨.ldI _, packA_of_masked h, rfl⟩,
    fun h => ⟨.jpV0 _, packA_of_masked h, rfl⟩,
    fun h => ⟨.rnd _ _, packXB_of_masked h, rfl⟩,
    fun h => ⟨.drw _ _ _, packXYN_of_masked h, rfl⟩,
    fun h => ⟨.skp _, packXF_of_masked h, rfl⟩,
    fun h => ⟨.sknp _, packXF_of_masked h, rfl⟩,
    fun h => ⟨.ldVxDt _, packXF_of_masked h, rfl⟩,
    fun h => ⟨.ldVxK _, packXF_of_masked h, rfl⟩,
    fun h => ⟨.ldDtVx _, packXF_of_masked h, rfl⟩,
    fun h => ⟨.ldStVx _, packXF_of_masked h, rfl⟩,
    fun h => ⟨.addI _, packXF_of_masked h, rfl⟩,
    fun h => ⟨.ldF _, packXF_of_masked h, rfl⟩,
    fun h => ⟨.ldB _, packXF_of_masked h, rfl⟩,
    fun h => ⟨.storeRegs _, packXF_of_masked h, rfl⟩,
    fun h => ⟨.loadRegs _, packXF_of_masked h, rfl⟩,
    List.forall_mem_nil _⟩

/-- Settles O3: a matching word is the word of an instruction of the row, and an instruction's word matches its row. -/
theorem wordDecodesToARowExactlyWhenItMatches : Obligations.WordDecodesToARowExactlyWhenItMatches := by
  intro w row hrow
  constructor
  · intro h
    obtain ⟨i, hi, hnum⟩ := encodes_of_match w row hrow h
    exact ⟨i, decodeWord_eq_ok.2 hi, hnum⟩
  · rintro ⟨i, hi, hnum⟩
    obtain ⟨row', hrow', hnum', hmatch⟩ := encode_matches_row i
    obtain rfl := row_eq_of_number row' hrow' row hrow (hnum'.trans hnum)
    rw [decodeWord_eq_ok.1 hi] at hmatch
    exact beq_iff_eq.1 hmatch

/-- A word of two rows would decode to an instruction of both, so the rows are one. -/
theorem row_eq_of_matches {w : Word} {r₁ r₂ : Row} (h₁ : r₁ ∈ opcodeTable) (h₂ : r₂ ∈ opcodeTable)
    (hm₁ : r₁.matches w = true) (hm₂ : r₂.matches w = true) : r₁ = r₂ := by
  obtain ⟨i, hi, hi₁⟩ := (wordDecodesToARowExactlyWhenItMatches w r₁ h₁).1 (beq_iff_eq.1 hm₁)
  obtain ⟨j, hj, hj₂⟩ := (wordDecodesToARowExactlyWhenItMatches w r₂ h₂).1 (beq_iff_eq.1 hm₂)
  obtain rfl : i = j := Except.ok.inj (hi.symm.trans hj)
  exact row_eq_of_number r₁ h₁ r₂ h₂ (hi₁.symm.trans hj₂)

/-! ### How many words match a row (spec/30_encoding.md R81)

Below the group, every mask of the table keeps the low 0, 4, 8 or 12 bits. So a row takes the words of one group that have
one residue, and 43,954 is the sum of their numbers over the rows, since no word is counted for two rows. -/

/-- The modulus of the low bits the row fixes below the group: 1, 16, 256 or 4096. -/
def Row.modulus (r : Row) : Nat := r.mask.toNat % 4096 + 1

/-- The masks of the table, each with its modulus. -/
theorem mask_cases : ∀ r ∈ opcodeTable, (r.mask = packA 0xF 0 ∧ r.modulus = 1) ∨
    (r.mask = packXYN 0xF 0 0 0xF ∧ r.modulus = 16) ∨ (r.mask = packXB 0xF 0 0xFF ∧ r.modulus = 256) ∨
    (r.mask = 0xFFFF ∧ r.modulus = 4096) := by decide

/-- What a mask of the table leaves of a word: its group, and its residue. -/
theorem and_mask_toNat (w : Word) {r : Row} (hr : r ∈ opcodeTable) :
    (w &&& r.mask).toNat = w.toNat / 4096 * 4096 + w.toNat % r.modulus := by
  have hzero : (0 : Nibble).toNat = 0 := rfl
  obtain ⟨hm, hmod⟩ | ⟨hm, hmod⟩ | ⟨hm, hmod⟩ | ⟨hm, hmod⟩ := mask_cases r hr
  · rw [hm, hmod, and_maskA, packA_toNat, fieldG_toNat, Nat.mod_one]
    rfl
  · rw [hm, hmod, and_maskXYF, packXYN_toNat, fieldG_toNat, fieldN_toNat, hzero]
    omega
  · rw [hm, hmod, and_maskXF, packXB_toNat, fieldG_toNat, fieldNN_toNat, hzero]
    omega
  · have hw : w &&& 0xFFFF = w := BitVec.and_allOnes
    rw [hm, hmod, hw]
    omega

/-- A row takes the words of its group that have its residue. -/
theorem matches_iff_group_residue (w : Word) {r : Row} (hr : r ∈ opcodeTable) :
    r.matches w = true ↔ w.toNat / 4096 = r.value.toNat / 4096 ∧ w.toNat % r.modulus = r.value.toNat % 4096 := by
  have hle : w.toNat % r.modulus < 4096 :=
    Nat.lt_of_lt_of_le (Nat.mod_lt _ (Nat.succ_pos _)) (Nat.mod_lt r.mask.toNat (by decide))
  rw [Row.matches, beq_iff_eq, BitVec.toNat_eq, and_mask_toNat w hr]
  omega

/-- One number in every m has the residue c. -/
theorem countP_residue {m c : Nat} (hc : c < m) (t : Nat) :
    (List.range (m * t)).countP (fun k => k % m == c) = t := by
  induction t with
  | zero => rfl
  | succ t ih =>
    have hblock : ((List.range m).map (m * t + ·)).countP (fun k => k % m == c) = (List.range m).count c := by
      rw [List.countP_map, List.count_eq_countP]
      refine List.countP_congr fun k hk => ?_
      rw [Function.comp_apply, Nat.mul_add_mod, Nat.mod_eq_of_lt (List.mem_range.1 hk)]
    rw [Nat.mul_succ, List.range_add, List.countP_append, ih, hblock, List.count_range, if_pos hc]

/-- In a group of 4096 numbers, one in every m has the residue c; outside it there is none. -/
theorem countP_group_residue {g m t c : Nat} (hg : g < 16) (hm : m * t = 4096) (hc : c < m) :
    (List.range 65536).countP (fun n => n / 4096 == g && n % m == c) = t := by
  have hout {l : List Nat} (h : ∀ n ∈ l, n / 4096 ≠ g) : l.countP (fun n => n / 4096 == g && n % m == c) = 0 := by
    rw [List.countP_eq_zero]
    intro n hn
    rw [beq_false_of_ne (h n hn)]
    exact Bool.false_ne_true
  have hin : ((List.range 4096).map (4096 * g + ·)).countP (fun n => n / 4096 == g && n % m == c) =
      (List.range (m * t)).countP (fun k => k % m == c) := by
    rw [List.countP_map, hm]
    refine List.countP_congr fun k hk => ?_
    have hgroup : (4096 * g + k) / 4096 = g := by have := List.mem_range.1 hk; omega
    have hres : (4096 * g + k) % m = k % m := by rw [← hm, Nat.mul_assoc, Nat.mul_add_mod]
    rw [Function.comp_apply, hgroup, hres, beq_self_eq_true, Bool.true_and]
  have hsplit : 65536 = 4096 * g + 4096 + 4096 * (15 - g) := by omega
  rw [hsplit, List.range_add, List.range_add, List.countP_append, List.countP_append, hin, countP_residue hc, hout, hout,
    Nat.zero_add, Nat.add_zero]
  · intro n hn
    obtain ⟨k, -, rfl⟩ := List.mem_map.1 hn
    omega
  · intro n hn
    have := List.mem_range.1 hn
    omega

/-- A row matches one in every `modulus` of the 4096 words of its group. -/
theorem countP_matches {r : Row} (hr : r ∈ opcodeTable) :
    (List.range 65536).countP (fun n => r.matches (BitVec.ofNat 16 n)) = 4096 / r.modulus := by
  have hrow : ∀ r ∈ opcodeTable, r.modulus * (4096 / r.modulus) = 4096 ∧ r.value.toNat % 4096 < r.modulus := by decide
  obtain ⟨hm, hc⟩ := hrow r hr
  have hg : r.value.toNat / 4096 < 16 := by have := r.value.isLt; omega
  rw [← countP_group_residue hg hm hc]
  refine List.countP_congr fun n hn => ?_
  rw [matches_iff_group_residue _ hr, BitVec.toNat_ofNat, Nat.mod_eq_of_lt (List.mem_range.1 hn), Bool.and_eq_true,
    beq_iff_eq, beq_iff_eq]

/-- Counting for two conditions that exclude each other. -/
theorem countP_or {α : Type} {p q : α → Bool} (h : ∀ a, p a = true → q a = true → False) (l : List α) :
    l.countP (fun a => p a || q a) = l.countP p + l.countP q := by
  induction l with
  | nil => rfl
  | cons a l ih =>
    rw [List.countP_cons, List.countP_cons, List.countP_cons, ih]
    cases hp : p a
    · rw [Bool.false_or, if_neg Bool.false_ne_true]; omega
    · have hq : q a = false := Bool.eq_false_iff.2 (h a hp)
      rw [hq, Bool.true_or, if_pos rfl, if_neg Bool.false_ne_true]; omega

/-- Counting for rows of which no word matches two is counting for each. -/
theorem countP_any {rows : List Row}
    (h : rows.Pairwise fun r₁ r₂ => ∀ w, r₁.matches w = true → r₂.matches w = true → False) (l : List Nat) :
    l.countP (fun n => rows.any fun r => r.matches (BitVec.ofNat 16 n)) =
      (rows.map fun r => l.countP fun n => r.matches (BitVec.ofNat 16 n)).sum := by
  induction h with
  | nil => exact List.countP_eq_zero.2 fun _ _ => Bool.false_ne_true
  | @cons r rows hr _ ih =>
    rw [List.map_cons, List.sum_cons, ← ih]
    refine countP_or (fun n hn hrest => ?_) l
    obtain ⟨r', hr', hn'⟩ := List.any_eq_true.1 hrest
    exact hr r' hr' _ hn hn'

/-- No word matches two rows at different places of the table. -/
theorem opcodeTable_disjoint :
    opcodeTable.Pairwise fun r₁ r₂ => ∀ w, r₁.matches w = true → r₂.matches w = true → False := by
  have hne : opcodeTable.Pairwise (· ≠ ·) := by decide
  exact hne.imp_of_mem fun h₁ h₂ hne _ hm₁ hm₂ => hne (row_eq_of_matches h₁ h₂ hm₁ hm₂)

/-- Settles O4: rows that match one word are one row, and the rows' numbers of words add up. -/
theorem rowsAreDisjointAndMatch43954Words : Obligations.RowsAreDisjointAndMatch43954Words := by
  refine ⟨fun _ _ h₁ _ h₂ => row_eq_of_matches h₁ h₂, ?_⟩
  rw [← List.countP_eq_length_filter, countP_any opcodeTable_disjoint,
    List.map_congr_left fun r hr => countP_matches hr]
  decide

/-! ### Assembly (spec/30_encoding.md R78 to R80) -/

@[simp] theorem regOk_toNat (x : Nibble) : regOk x.toNat = true := decide_eq_true x.isLt

@[simp] theorem nibbleOk_toNat (n : Nibble) : nibbleOk n.toNat = true := decide_eq_true n.isLt

@[simp] theorem byteOk_toNat (nn : Byte) : byteOk nn.toNat = true := decide_eq_true nn.isLt

@[simp] theorem addrOk_toNat (nnn : Addr) : addrOk nnn.toNat = true := decide_eq_true nnn.isLt

@[simp] theorem wordOk_toNat (w : Word) : wordOk w.toNat = true := decide_eq_true w.isLt

/-- What an instruction prints as is a statement the assembler accepts: its operands are as wide as its fields. -/
theorem toStmt_wellFormed (i : Instr) : i.toStmt.wellFormed = true := by
  cases i <;> simp [Instr.toStmt, Stmt.wellFormed, operandsOk]

/-- What an instruction prints as assembles to its word. -/
theorem assemble_toStmt (i : Instr) : i.toStmt.assemble = some (encode i) := by
  unfold Stmt.assemble
  rw [if_pos (toStmt_wellFormed i)]
  cases i <;> simp [Instr.toStmt, instrOf]

theorem assemble_dw (w : Word) : (Stmt.dw w.toNat).assemble = some w := by
  simp [Stmt.assemble, Stmt.wellFormed]

/-- Settles O7: a recognized word prints as its instruction, any other as `DW`. -/
theorem assemblingTheDisassemblyGivesTheWord : Obligations.AssemblingTheDisassemblyGivesTheWord := by
  intro w
  unfold disassemble
  cases h : decodeWord w with
  | ok i => exact ⟨toStmt_wellFormed i, decodeWord_eq_ok.1 h ▸ assemble_toStmt i⟩
  | error e => exact ⟨wordOk_toNat w, assemble_dw w⟩

end Sys2Proof

namespace Sys2Proof.Machine

/-! ### The cycle (spec/30_encoding.md R76, R77) -/

/-- The fetched opcode is the one with the number of the two bytes at pc, big-endian (spec/20_memory.md R56). -/
theorem fetch_eq_of_toNat {s : State} (hpc : s.pc.toNat ≤ 0xFFE) {opcode : Word}
    (h : opcode.toNat = (s.mem.read s.pc.toNat).toNat * 256 + (s.mem.read (s.pc.toNat + 1)).toNat) :
    s.fetch = some opcode := by
  rw [fetch_inside s hpc]
  exact congrArg some (BitVec.eq_of_toNat_eq ((wordOfBytes_toNat _ _).trans h.symm))

/-- Settles O8: one lemma of the model's laws for each branch of the procedure. -/
theorem cycleFetchesDecodesExecutesThenTicks : Obligations.CycleFetchesDecodesExecutesThenTicks := by
  intro r s
  refine ⟨cycle_halted r s, cycle_fetchOob r s, fun hrun hpc opcode hop => ?_⟩
  have hfetch := fetch_eq_of_toNat hpc hop
  exact ⟨cycle_illegal r s hrun opcode hfetch, fun i u => cycle_exec r s u hrun opcode hfetch i⟩

/-- Settles O9: a step is a Cycle whose RAND is the next free value, and the bytes at pc are the word it fetches. -/
theorem stepRunsTheDecodedInstruction : Obligations.StepRunsTheDecodedInstruction := by
  intro s u i hrun hpc hdec hexec
  obtain ⟨hword, -⟩ := decodeBytes_eq_ok.1 hdec
  exact cycle_exec _ { s with inputs := s.inputs + 1 } u hrun _ (fetch_inside s hpc) i hword hexec

end Sys2Proof.Machine

/-! PROOFS. The display (spec/40_display.md): CLS, the pixels and the collision flag of DRW, and the toggle law. -/

namespace Sys2Proof.Machine

/-! ### CLS (R100) -/

/-- Every pixel of the frame CLS shows is off. -/
theorem pixel_blank (p : Nat) : pixel (Vector.replicate 32 0) p = false := by simp [pixel]

/-- Settles O26: CLS shows the blank frame and goes on. -/
theorem clearScreenTurnsEveryPixelOff : Obligations.ClearScreenTurnsEveryPixelOff :=
  ⟨rfl, fun s => ⟨(s.show (Vector.replicate 32 0)).advance, rfl, fun p _ => pixel_blank p, rfl,
    pcOn_of_eq (by omega) rfl, rfl, fun _ => rfl⟩⟩

/-! ### What DRW draws (R101 to R103) -/

/-- The frame DRW shows is the old one with the covered pixels toggled. -/
theorem pixel_drawn (s : State) (x y n : Nibble) {p : Nat} (hp : p < 2048) :
    pixel (drawn s x y n).1 p = (pixel s.fb p ^^ s.covers x y n p) := by
  rw [drawn, pixel_blit _ _ _ _ p hp, covers_eq_rowsCover]

/-- DRW marks a collision exactly when a covered pixel was on. -/
theorem hit_drawn (s : State) (x y n : Nibble) :
    (drawn s x y n).2 = true ↔ ∃ p, p < 2048 ∧ s.covers x y n p = true ∧ pixel s.fb p = true := by
  simp [drawn, hit_blit, covers_eq_rowsCover]

/-- The state DRW leaves when its range check passes. -/
def State.afterDrw (s : State) (x y n : Nibble) : State :=
  ((s.setVF (flagOf (drawn s x y n).2)).show (drawn s x y n).1).advance

theorem exec_drw_inside {s : State} {x y n : Nibble} (h : n.toNat = 0 ∨ s.i.toNat + n.toNat ≤ 0x1000) :
    exec (.drw x y n) s = .next (s.afterDrw x y n) := (exec_drw x y n s).trans (if_pos h)

/-- DRW writes no register but VF. -/
theorem readV_afterDrw (s : State) (x y n : Nibble) {r : Nibble} (hr : r ≠ 15#4) :
    (s.afterDrw x y n).readV r = s.readV r := by
  simp [State.afterDrw, readV_setVF, hr]

theorem readVF_afterDrw (s : State) (x y n : Nibble) :
    (s.afterDrw x y n).readV 15#4 = flagOf (drawn s x y n).2 := by
  simp [State.afterDrw, readV_setVF]

theorem readVF_afterDrw_collision {s : State} {x y n : Nibble}
    (h : ∃ p, p < 2048 ∧ s.covers x y n p = true ∧ pixel s.fb p = true) :
    (s.afterDrw x y n).readV 15#4 = 1 := by
  rw [readVF_afterDrw, (hit_drawn s x y n).2 h]
  rfl

theorem readVF_afterDrw_no_collision {s : State} {x y n : Nibble}
    (h : ∀ p, p < 2048 → s.covers x y n p = true → pixel s.fb p = false) :
    (s.afterDrw x y n).readV 15#4 = 0 := by
  have hmiss : ¬ (drawn s x y n).2 = true := by
    rw [hit_drawn]
    rintro ⟨p, hp, hc, hon⟩
    simp [h p hp hc] at hon
  rw [readVF_afterDrw, Bool.eq_false_iff.2 hmiss]
  rfl

/-- Settles O27: the range check decides between `afterDrw`, which toggles what the sprite covers, and fault entry. -/
theorem drawTogglesTheCoveredPixels : Obligations.DrawTogglesTheCoveredPixels := by
  intro x y n s
  refine ⟨?_, fun hin => ?_, fun hn hout => ?_⟩
  · rw [encode, packXYN_toNat]
    rfl
  · have hrange : n.toNat = 0 ∨ s.i.toNat + n.toNat ≤ 0x1000 := by
      rcases hin with rfl | hin
      · exact .inl rfl
      · omega
    exact ⟨s.afterDrw x y n, exec_drw_inside hrange, fun p hp => pixel_drawn s x y n hp, readVF_afterDrw_collision,
      readVF_afterDrw_no_collision, fun r hr => readV_afterDrw s x y n hr, rfl, pcOn_of_eq (by omega) rfl, rfl,
      fun _ => rfl⟩
  · have hn' : n.toNat ≠ 0 := fun h => hn (BitVec.eq_of_toNat_eq h)
    have hrange : ¬ (n.toNat = 0 ∨ s.i.toNat + n.toNat ≤ 0x1000) := by omega
    exact (exec_drw x y n s).trans (if_neg hrange)

/-! ### The toggle law (R104) -/

/-- A draw whose origin is not in VF leaves the same sprite covering the same pixels: it moves neither the origin, I nor
memory. -/
theorem covers_afterDrw (s : State) {x y : Nibble} (n : Nibble) (hx : x ≠ 15#4) (hy : y ≠ 15#4) (p : Nat) :
    (s.afterDrw x y n).covers x y n p = s.covers x y n p := by
  rw [State.covers, readV_afterDrw s x y n hx, readV_afterDrw s x y n hy]
  rfl

/-- A covered pixel is the other way round after the draw. -/
theorem pixel_afterDrw_covered {s : State} {x y n : Nibble} {p : Nat} (hp : p < 2048)
    (hc : s.covers x y n p = true) : pixel (s.afterDrw x y n).fb p = !pixel s.fb p :=
  (pixel_drawn s x y n hp).trans (by rw [hc, Bool.xor_true])

/-- Two draws toggle each covered pixel twice. -/
theorem afterDrw_afterDrw_fb (s : State) {x y : Nibble} (n : Nibble) (hx : x ≠ 15#4) (hy : y ≠ 15#4) :
    ((s.afterDrw x y n).afterDrw x y n).fb = s.fb := by
  apply frame_ext
  intro p hp
  calc pixel ((s.afterDrw x y n).afterDrw x y n).fb p
      = (pixel (s.afterDrw x y n).fb p ^^ (s.afterDrw x y n).covers x y n p) := pixel_drawn _ x y n hp
    _ = ((pixel s.fb p ^^ s.covers x y n p) ^^ s.covers x y n p) := by
        rw [covers_afterDrw s n hx hy p]
        exact congrArg (· ^^ _) (pixel_drawn s x y n hp)
    _ = pixel s.fb p := by rw [Bool.xor_assoc, Bool.xor_self, Bool.xor_false]

/-- Settles O28: the second draw covers the same pixels, each of them now the other way round. -/
theorem drawingTwiceRestoresTheFramebuffer : Obligations.DrawingTwiceRestoresTheFramebuffer := by
  intro x y n s t hx hy hf hexec
  have hrange := dataFault_none s hf
  obtain rfl : s.afterDrw x y n = t := by simpa [exec_drw_inside hrange] using hexec
  refine ⟨_, exec_drw_inside hrange, afterDrw_afterDrw_fb s n hx hy, ?_, fun hon => ?_⟩
  · rintro ⟨p, hp, hc, hoff⟩
    refine readVF_afterDrw_collision ⟨p, hp, (covers_afterDrw s n hx hy p).trans hc, ?_⟩
    rw [pixel_afterDrw_covered hp hc, hoff]
    rfl
  · refine readVF_afterDrw_no_collision fun p hp hc => ?_
    rw [covers_afterDrw s n hx hy] at hc
    rw [pixel_afterDrw_covered hp hc, hon p hp hc]
    rfl

end Sys2Proof.Machine

/-! PROOFS. Control transfer (spec/41_flow.md): jumps, calls and returns, and the skips on registers. -/

namespace Sys2Proof.Machine

/-! ### Jumps (R121, R127) -/

theorem onlyPc_setPc (s : State) (w : Word) : OnlyPc s (s.setPc w) := ⟨rfl, fun _ => rfl⟩

/-- Settles O29: each jump is `setPc` of its target, and the sum of `JP V0` does not wrap. -/
theorem jumpsSetThePc : Obligations.JumpsSetThePc := fun nnn s =>
  ⟨packA_toNat 0x1 nnn, packA_toNat 0xB nnn, ⟨_, rfl, zextAddr_toNat nnn, onlyPc_setPc s _⟩,
    ⟨_, rfl, jpV0_target_toNat (s.readV 0) nnn, onlyPc_setPc s _⟩⟩

/-! ### Calls and returns (R120, R122) -/

/-- Settles O30: `exec_callAddr` with room on the stack and without; the push writes the entry at SP. -/
theorem callPushesItsAddressAndJumps : Obligations.CallPushesItsAddressAndJumps := by
  intro nnn s
  refine ⟨packA_toNat 0x2 nnn, fun hroom => ?_, fun hfull => ?_⟩
  · exact ⟨_, (exec_callAddr nnn s).trans (dif_pos hroom), Vector.getElem?_set_self hroom,
      fun k hk => Vector.getElem?_set_ne hroom hk.symm, rfl, zextAddr_toNat nnn, rfl, fun _ => rfl⟩
  · exact (exec_callAddr nnn s).trans (dif_neg (by omega))

/-- Settles O31: `exec_ret` with an entry on the stack and without. -/
theorem returnPopsAndGoesOnTwoPast : Obligations.ReturnPopsAndGoesOnTwoPast := by
  refine ⟨rfl, fun s => ⟨fun hentry => ?_, fun hempty => ?_⟩⟩
  · exact ⟨_, _, (exec_ret s).trans (dif_pos hentry), Vector.getElem?_eq_getElem (by have := s.sp.isLt; omega),
      BitVec.toNat_add _ _, rfl, rfl, fun _ => rfl⟩
  · exact (exec_ret s).trans (dif_neg (by omega))

/-- Settles O32: the entry the return pops is the one the call pushed. -/
theorem returnResumesAfterTheCall : Obligations.ReturnResumesAfterTheCall := by
  intro nnn s t at_ hroom hcall
  obtain ⟨-, hpush, -⟩ := callPushesItsAddressAndJumps nnn s
  obtain ⟨t', hcall', hentry, -, hsp, -⟩ := hpush hroom
  obtain rfl : t' = t := by simpa [hcall'] using hcall
  obtain ⟨-, hret⟩ := returnPopsAndGoesOnTwoPast
  obtain ⟨hpop, -⟩ := hret { t' with pc := at_ }
  obtain ⟨u, e, hu, he, hupc, husp, -⟩ := hpop (by simp only [hsp]; omega)
  simp only [hsp, Nat.add_sub_cancel] at he husp
  obtain rfl : s.pc = e := by simpa [hentry] using he
  exact ⟨u, hu, hupc, Fin.ext husp⟩

/-! ### Skips (R123 to R126) -/

/-- A skip whose test decides a condition has the result of a skip on that condition. -/
theorem skipResult_skipIf (s : State) {c : Bool} {p : Prop} (h : c = true ↔ p) : SkipResult p s (s.skipIf c) := by
  have hpc : PcOn (if c then 4 else 2) s (s.skipIf c) := pcOn_skipIf rfl
  refine ⟨onlyPc_setPc s _, fun hp => ?_, fun hp => ?_⟩
  · rwa [if_pos (h.2 hp)] at hpc
  · rwa [if_neg (mt h.1 hp)] at hpc

theorem beq_iff_toNat_eq {a b : Byte} : (a == b) = true ↔ a.toNat = b.toNat := beq_iff_eq.trans BitVec.toNat_eq

theorem bne_iff_toNat_ne {a b : Byte} : (a != b) = true ↔ a.toNat ≠ b.toNat := bne_iff_ne.trans BitVec.toNat_ne

/-- Settles O33: each skip is `skipIf` of its test. -/
theorem skipsGoOnByFourOrTwo : Obligations.SkipsGoOnByFourOrTwo := fun x y nn s =>
  ⟨packXB_toNat 0x3 x nn, packXB_toNat 0x4 x nn, packXYN_toNat 0x5 x y 0x0, packXYN_toNat 0x9 x y 0x0,
    ⟨_, rfl, skipResult_skipIf s beq_iff_toNat_eq⟩, ⟨_, rfl, skipResult_skipIf s bne_iff_toNat_ne⟩,
    ⟨_, rfl, skipResult_skipIf s beq_iff_toNat_eq⟩, ⟨_, rfl, skipResult_skipIf s bne_iff_toNat_ne⟩⟩

end Sys2Proof.Machine

/-! PROOFS. The ALU (spec/42_alu.md): the register instructions without a flag, and the three that write VF first. -/

namespace Sys2Proof.Machine

/-! ### Instructions without a flag (R150 to R156, R158, R161) -/

/-- One register write and the pc step are a plain register result. -/
theorem regResult_setV (s : State) (x : Nibble) {b : Byte} {value : Nat} (h : b.toNat = value) :
    RegResult x value s (s.setV x b).advance :=
  ⟨(congrArg BitVec.toNat (readV_setV_same s x b)).trans h, fun _ hr => readV_setV_other s b hr,
    ⟨rfl, fun _ => rfl⟩, pcOn_of_eq (by omega) rfl⟩

theorem shiftRight_one_toNat (a : Byte) : (a >>> 1).toNat = a.toNat / 2 := Nat.shiftRight_eq_div_pow a.toNat 1

/-- The words of group 8 (R73), with the selector beside the group. -/
theorem pack8_toNat (x y n : Nibble) :
    (packXYN 0x8 x y n).toNat = 0x8000 + n.toNat + x.toNat * 256 + y.toNat * 16 := by
  rw [packXYN_toNat, show (0x8 : Nibble).toNat = 8 from rfl]
  omega

/-- Settles O34: each instruction is one register write, and its byte operation is the one on naturals. -/
theorem flaglessAluWritesOnlyVx : Obligations.FlaglessAluWritesOnlyVx := by
  intro x y nn s
  have hXB (g : Nibble) : (packXB g x nn).toNat = g.toNat * 4096 + (x.toNat * 256 + nn.toNat) :=
    (packXB_toNat g x nn).trans (Nat.add_assoc _ _ _)
  have h8 (n : Nibble) : (packXYN 0x8 x y n).toNat = 0x8000 + n.toNat + (x.toNat * 256 + y.toNat * 16) :=
    (pack8_toNat x y n).trans (Nat.add_assoc _ _ _)
  refine ⟨⟨hXB 0x6, hXB 0x7, h8 0x0, h8 0x1, h8 0x2, h8 0x3, h8 0x4, h8 0x6⟩, ?_⟩
  exact ⟨⟨_, rfl, regResult_setV s x rfl⟩, ⟨_, rfl, regResult_setV s x (BitVec.toNat_add _ _)⟩,
    ⟨_, rfl, regResult_setV s x rfl⟩, ⟨_, rfl, regResult_setV s x (BitVec.toNat_or ..)⟩,
    ⟨_, rfl, regResult_setV s x (BitVec.toNat_and ..)⟩, ⟨_, rfl, regResult_setV s x (BitVec.toNat_xor ..)⟩,
    ⟨_, rfl, regResult_setV s x (BitVec.toNat_add _ _)⟩, ⟨_, rfl, regResult_setV s x (shiftRight_one_toNat _)⟩⟩

/-- Settles O38: RND is one register write of the masked input. -/
theorem randomByteIsMaskedByTheImmediate : Obligations.RandomByteIsMaskedByTheImmediate := by
  rintro x nn r s rfl
  exact ⟨packXB_toNat 0xC x nn, _, rfl, regResult_setV s x (BitVec.toNat_and ..)⟩

/-! ### The flag first, then V[x] (decision D1) -/

/-- The state after a flag write to VF and then a write to V[x] of a value read off the state with the new flag. -/
def State.flagThen (s : State) (flag : Byte) (x : Nibble) (value : State → Byte) : State :=
  ((s.setVF flag).setV x (value (s.setVF flag))).advance

section
variable (s : State) (flag : Byte) (x : Nibble) (value : State → Byte)

theorem readV_flagThen : (s.flagThen flag x value).readV x = value (s.setVF flag) := readV_setV_same _ x _

theorem readVF_flagThen (hx : x ≠ 15#4) : (s.flagThen flag x value).readV 15#4 = flag :=
  (readV_setV_other _ _ hx.symm).trans (readV_setV_same s 15#4 flag)

/-- No other register and no other state changes, and the pc goes on by 2. -/
theorem flagThen_frame :
    (∀ r, r ≠ x → r ≠ 15#4 → (s.flagThen flag x value).readV r = s.readV r) ∧
    OnlyRegsAndPc s (s.flagThen flag x value) ∧ PcOn 2 s (s.flagThen flag x value) :=
  ⟨fun _ hr hF => (readV_setV_other _ _ hr).trans (readV_setV_other s flag hF), ⟨rfl, fun _ => rfl⟩,
    pcOn_of_eq (by omega) rfl⟩

end

/-! ### SUB and SUBN (R157, R159) -/

theorem noBorrow_toNat (a b : Byte) : (noBorrow a b).toNat = if b.toNat > a.toNat then 0 else 1 :=
  apply_ite BitVec.toNat _ 0 1

/-- The state after V[p] - V[q] into V[x], its no-borrow flag written first: SUB has p = x, SUBN has q = x. -/
def State.afterSubtract (s : State) (x p q : Nibble) : State :=
  s.flagThen (noBorrow (s.readV p) (s.readV q)) x fun t => t.readV p - t.readV q

theorem exec_subReg (x y : Nibble) (s : State) : exec (.subReg x y) s = .next (s.afterSubtract x x y) := rfl

theorem exec_subnReg (x y : Nibble) (s : State) : exec (.subnReg x y) s = .next (s.afterSubtract x y x) := rfl

/-- The flag is that of the operands before the instruction. -/
theorem readVF_afterSubtract (s : State) {x : Nibble} (p q : Nibble) (hx : x ≠ 15#4) :
    ((s.afterSubtract x p q).readV 15#4).toNat = if (s.readV q).toNat > (s.readV p).toNat then 0 else 1 :=
  (congrArg BitVec.toNat (readVF_flagThen _ _ _ _ hx)).trans (noBorrow_toNat _ _)

theorem sub_toNat (a b : Byte) : (a - b).toNat = (a.toNat + 256 - b.toNat) % 256 := by
  have := b.isLt
  rw [BitVec.toNat_sub]
  omega

section
variable (s : State) (x : Nibble) {p q : Nibble}

/-- The difference is taken of the operands as they are read after the flag write. -/
theorem readV_afterSubtract (p q : Nibble) :
    ((s.afterSubtract x p q).readV x).toNat =
      (((s.setVF (noBorrow (s.readV p) (s.readV q))).readV p).toNat + 256 -
        ((s.setVF (noBorrow (s.readV p) (s.readV q))).readV q).toNat) % 256 := by
  rw [State.afterSubtract, readV_flagThen, sub_toNat]

theorem readV_afterSubtract_of_ne (hp : p ≠ 15#4) (hq : q ≠ 15#4) :
    ((s.afterSubtract x p q).readV x).toNat = ((s.readV p).toNat + 256 - (s.readV q).toNat) % 256 := by
  rw [readV_afterSubtract, readV_setVF, readV_setVF, if_neg hp, if_neg hq]

/-- VF minus another register: the flag is what is subtracted from. -/
theorem readV_afterSubtract_from_vf (hq : q ≠ 15#4) :
    ((s.afterSubtract x 15#4 q).readV x).toNat =
      ((if (s.readV q).toNat > (s.readV 15#4).toNat then 0 else 1) + 256 - (s.readV q).toNat) % 256 := by
  rw [readV_afterSubtract, readV_setVF, readV_setVF, if_pos rfl, if_neg hq, noBorrow_toNat]

/-- A register minus VF: the flag is what is subtracted. -/
theorem readV_afterSubtract_vf (hp : p ≠ 15#4) :
    ((s.afterSubtract x p 15#4).readV x).toNat =
      ((s.readV p).toNat + 256 - if (s.readV 15#4).toNat > (s.readV p).toNat then 0 else 1) % 256 := by
  rw [readV_afterSubtract, readV_setVF, readV_setVF, if_neg hp, if_pos rfl, noBorrow_toNat]

/-- A register minus itself is 0, VF included. -/
theorem readV_afterSubtract_self : ((s.afterSubtract x x x).readV x).toNat = 0 := by
  rw [readV_afterSubtract, Nat.add_sub_cancel_left]

/-- A register minus itself does not borrow. -/
theorem readVF_afterSubtract_self (hx : x ≠ 15#4) : ((s.afterSubtract x x x).readV 15#4).toNat = 1 :=
  (readVF_afterSubtract s x x hx).trans (if_neg (Nat.lt_irrefl _))

end

/-- Settles O35: SUB is the subtraction from V[x], and each corner case names the operands that are VF. -/
theorem subtractWritesNoBorrowThenDifference : Obligations.SubtractWritesNoBorrowThenDifference := by
  intro x y s
  refine ⟨_, exec_subReg x y s, pack8_toNat x y 0x5, ⟨fun hx hy => ?_, ?_, ?_, ?_, ?_⟩, flagThen_frame s _ x _⟩
  · exact ⟨readVF_afterSubtract s x y hx, readV_afterSubtract_of_ne s x hx hy⟩
  · rintro rfl hy
    exact readV_afterSubtract_from_vf s 15#4 hy
  · rintro hx rfl
    exact ⟨readVF_afterSubtract s x 15#4 hx, readV_afterSubtract_vf s x hx⟩
  · rintro rfl hx
    exact ⟨readVF_afterSubtract_self s x hx, readV_afterSubtract_self s x⟩
  · rintro rfl rfl
    exact readV_afterSubtract_self s 15#4

/-- Settles O36: SUBN is the subtraction of V[x], so where SUB takes the flag as the one operand it takes it as the
other. -/
theorem reverseSubtractWritesNoBorrowThenDifference : Obligations.ReverseSubtractWritesNoBorrowThenDifference := by
  intro x y s
  refine ⟨_, exec_subnReg x y s, pack8_toNat x y 0x7, ⟨fun hx hy => ?_, ?_, ?_, ?_, ?_⟩, flagThen_frame s _ x _⟩
  · exact ⟨readVF_afterSubtract s y x hx, readV_afterSubtract_of_ne s x hy hx⟩
  · rintro rfl hy
    exact readV_afterSubtract_vf s 15#4 hy
  · rintro hx rfl
    exact ⟨readVF_afterSubtract s 15#4 x hx, readV_afterSubtract_from_vf s x hx⟩
  · rintro rfl hx
    exact ⟨readVF_afterSubtract_self s x hx, readV_afterSubtract_self s x⟩
  · rintro rfl rfl
    exact readV_afterSubtract_self s 15#4

/-! ### SHL (R160) -/

theorem topBit_toNat (a : Byte) : (topBit a).toNat = a.toNat / 128 := Nat.shiftRight_eq_div_pow a.toNat 7

theorem shiftLeft_one_toNat (a : Byte) : (a <<< 1).toNat = 2 * a.toNat % 256 := by
  rw [BitVec.toNat_shiftLeft, Nat.shiftLeft_eq, Nat.mul_comm]

/-- The flag is 0 or 1, so its double does not wrap. -/
theorem topBit_shiftLeft_toNat (a : Byte) : (topBit a <<< 1).toNat = 2 * (a.toNat / 128) := by
  have := a.isLt
  rw [shiftLeft_one_toNat, topBit_toNat]
  omega

/-- The state after SHL: bit 7 into VF, then the double of V[x] as it is then. -/
def State.afterShl (s : State) (x : Nibble) : State := s.flagThen (topBit (s.readV x)) x fun t => t.readV x <<< 1

theorem exec_shlReg (x y : Nibble) (s : State) : exec (.shlReg x y) s = .next (s.afterShl x) := rfl

theorem readVF_afterShl (s : State) {x : Nibble} (hx : x ≠ 15#4) :
    ((s.afterShl x).readV 15#4).toNat = (s.readV x).toNat / 128 := by
  rw [State.afterShl, readVF_flagThen _ _ _ _ hx, topBit_toNat]

theorem readV_afterShl (s : State) {x : Nibble} (hx : x ≠ 15#4) :
    ((s.afterShl x).readV x).toNat = 2 * (s.readV x).toNat % 256 := by
  rw [State.afterShl, readV_flagThen, readV_setVF, if_neg hx, shiftLeft_one_toNat]

/-- With x = F the flag itself is doubled. -/
theorem readV_afterShl_vf (s : State) : ((s.afterShl 15#4).readV 15#4).toNat = 2 * ((s.readV 15#4).toNat / 128) := by
  rw [State.afterShl, readV_flagThen, readV_setVF, if_pos rfl, topBit_shiftLeft_toNat]

/-- Settles O37: `afterShl` with V[x] other than VF and with VF. -/
theorem shiftLeftWritesTopBitThenDouble : Obligations.ShiftLeftWritesTopBitThenDouble := by
  intro x y s
  refine ⟨_, exec_shlReg x y s, pack8_toNat x y 0xE, ⟨fun hx => ?_, ?_⟩, flagThen_frame s _ x _⟩
  · exact ⟨readVF_afterShl s hx, readV_afterShl s hx⟩
  · rintro rfl
    exact readV_afterShl_vf s

end Sys2Proof.Machine

/-! PROOFS. The index register and memory (spec/43_index_memory.md): LD I, LD F and ADD I, the range check of every access
through I, and the blocks LD B, LD [I] and LD Vx,[I] move. -/

namespace Sys2Proof.Machine

/-- The words of format XF in group F (R73), with the selector beside the group. -/
theorem packF_toNat (x : Nibble) (nn : Byte) : (packXB 0xF x nn).toNat = 0xF000 + nn.toNat + x.toNat * 256 := by
  rw [packXB_toNat, show (0xF : Nibble).toNat = 15 from rfl]
  omega

/-! ### LD I and LD F (R180, R182) -/

/-- Five times a byte fits 16 bits. -/
theorem glyphAddress_toNat (b : Byte) : (zextByte b * 5).toNat = b.toNat * 5 := by
  have := b.isLt
  rw [BitVec.toNat_mul, zextByte_toNat, show (5 : Word).toNat = 5 from rfl]
  omega

/-- Settles O39: each is a write of I, of the address field and of the glyph's address. -/
theorem indexLoadsSetI : Obligations.IndexLoadsSetI := fun nnn x s =>
  ⟨packA_toNat 0xA nnn, packF_toNat x 0x29,
    ⟨_, rfl, zextAddr_toNat nnn, pcOn_of_eq (by omega) rfl, rfl, fun _ => rfl⟩,
    ⟨_, rfl, glyphAddress_toNat (s.readV x), pcOn_of_eq (by omega) rfl, rfl, fun _ => rfl⟩⟩

/-! ### ADD I (R181) -/

theorem indexOverflow_toNat (i : Word) (b : Byte) :
    (indexOverflow i b).toNat = if i.toNat + b.toNat > 0xFFF then 1 else 0 :=
  apply_ite BitVec.toNat _ 1 0

/-- The state after ADD I: the overflow flag into VF, then I plus V[x] as it is then. -/
def State.afterAddI (s : State) (x : Nibble) : State :=
  let t := s.setVF (indexOverflow s.i (s.readV x))
  (t.setI (t.i + zextByte (t.readV x))).advance

theorem exec_addI (x : Nibble) (s : State) : exec (.addI x) s = .next (s.afterAddI x) := rfl

theorem readV_afterAddI (s : State) (x r : Nibble) :
    (s.afterAddI x).readV r = if r = 15#4 then indexOverflow s.i (s.readV x) else s.readV r :=
  readV_setVF s r _

/-- The addend is V[x] as the flag write leaves it. -/
theorem index_afterAddI (s : State) (x : Nibble) :
    (s.afterAddI x).i.toNat = (s.i.toNat + ((s.afterAddI x).readV x).toNat) % 65536 :=
  (BitVec.toNat_add _ _).trans (by rw [zextByte_toNat]; rfl)

/-- Settles O40: the flag is read back from VF, and it is the addend exactly when x = F. -/
theorem addToIndexWritesOverflowThenSum : Obligations.AddToIndexWritesOverflowThenSum := by
  intro x s
  have hflag : ((s.afterAddI x).readV 15#4).toNat = if s.i.toNat + (s.readV x).toNat > 0xFFF then 1 else 0 := by
    rw [readV_afterAddI, if_pos rfl, indexOverflow_toNat]
  refine ⟨_, exec_addI x s, packF_toNat x 0x1E, ⟨hflag, fun hx => ?_, fun hx => ?_⟩, fun r hr => ?_,
    pcOn_of_eq (by omega) rfl, rfl, fun _ => rfl⟩
  · rw [index_afterAddI, readV_afterAddI, if_neg hx]
  · rw [index_afterAddI, ← hflag, hx]
  · rw [readV_afterAddI, if_neg hr]

/-! ### The range check (R185) -/

/-- An instruction whose fault condition is the range check on `k` bytes enters DataOOB when the last byte lies above
0xFFF. -/
theorem exec_rangeCheck_fails {i : Instr} {k : Nat} {s : State} (hi : s.faultFor i = s.dataFault k) (hk : 1 ≤ k)
    (hout : s.i.toNat + k - 1 > 0xFFF) :
    exec i s = .next (faulted s .dataOob (encode i) (BitVec.ofNat 16 (max s.i.toNat 0x1000))) :=
  exec_fault i s _ _ (hi.trans (if_pos ⟨hk, by omega⟩))

theorem dataFault_inside {s : State} {k : Nat} (h : k = 0 ∨ s.i.toNat + k - 1 ≤ 0xFFF) : s.dataFault k = none :=
  if_neg (by omega)

/-- Settles O45: each of the four has the range check on its k bytes as its only fault condition. -/
theorem rangeCheckGuardsEveryAccessThroughI : Obligations.RangeCheckGuardsEveryAccessThroughI := by
  intro i k s hi
  have hcheck : s.faultFor i = s.dataFault k ∧ s.pcAfter i = s.pc + 2 := by
    obtain ⟨x, y, n, rfl, rfl⟩ | ⟨x, rfl, rfl⟩ | ⟨x, rfl, rfl⟩ | ⟨x, rfl, rfl⟩ := hi <;> exact ⟨rfl, rfl⟩
  obtain ⟨hfault, hpc⟩ := hcheck
  refine ⟨exec_rangeCheck_fails hfault, fun hin => ?_⟩
  have hnone : s.faultFor i = none := hfault.trans (dataFault_inside hin)
  obtain ⟨t, e⟩ := exec_effect i s hnone
  exact ⟨t, e.runs, e.faultCause, pcOn_of_eq (by omega) ((exec_pc hnone e.runs).trans hpc)⟩

/-! ### LD B (R183, R184) -/

/-- After a copy of the three bytes of LD B, they read as the numbers of the formula, which fit a byte. -/
theorem read_copyBytes_bcdBytes {m : Memory} (hwf : m.wf = true) {a : Nat} (ha : a + 2 ≤ 0xFFF) (v : Byte) :
    ((copyBytes m a (bcdBytes v)).read a).toNat = v.toNat / 100 ∧
    ((copyBytes m a (bcdBytes v)).read (a + 1)).toNat = v.toNat / 10 % 10 ∧
    ((copyBytes m a (bcdBytes v)).read (a + 2)).toNat = v.toNat % 100 % 10 := by
  have hv := v.isLt
  have hread (j : Nat) (hj : j < 3) : (copyBytes m a (bcdBytes v)).read (a + j) = (bcdBytes v)[j] :=
    read_copyBytes_inside hwf a (bcdBytes v) (by rw [bcdBytes_length]; omega) j hj
  refine ⟨(congrArg BitVec.toNat (hread 0 (by omega))).trans ?_, (congrArg BitVec.toNat (hread 1 (by omega))).trans ?_,
    (congrArg BitVec.toNat (hread 2 (by omega))).trans ?_⟩
  all_goals exact Nat.mod_eq_of_lt (by omega)

/-- Settles O41: inside memory LD B is one copy of three bytes. -/
theorem decimalDigitsAreStoredAtI : Obligations.DecimalDigitsAreStoredAtI := by
  intro x s hwf
  refine ⟨packF_toNat x 0x33, fun hin => ?_, exec_rangeCheck_fails (k := 3) rfl (by omega)⟩
  obtain ⟨hundreds, tens, ones⟩ := read_copyBytes_bcdBytes hwf hin (s.readV x)
  exact ⟨_, (exec_ldB x s).trans (if_pos (by omega)), hundreds, tens, ones,
    fun _ ha => read_copyBytes_outside s.mem _ (bcdBytes _) ha, pcOn_of_eq (by omega) rfl, rfl, copyBytes_font ..⟩

/-- Settles O42: the numbers of the formula are the digits, since 10 divides 100. -/
theorem storedDigitsAreTheDecimalDigits : Obligations.StoredDigitsAreTheDecimalDigits := by
  intro x s t hwf hin hexec
  obtain ⟨-, hstore, -⟩ := decimalDigitsAreStoredAtI x s hwf
  obtain ⟨t', hexec', hundreds, tens, ones, -⟩ := hstore hin
  obtain rfl : t' = t := by simpa [hexec'] using hexec
  have hv := (s.readV x).isLt
  simp only [hundreds, tens, ones]
  omega

/-! ### LD [I], Vx and LD Vx, [I] (R186, R187) -/

/-- Moving I past a register block inside memory does not wrap. -/
theorem indexPastBlock_toNat {i : Word} {x : Nibble} (h : i.toNat + x.toNat ≤ 0xFFF) :
    (i + BitVec.ofNat 16 (x.toNat + 1)).toNat = i.toNat + x.toNat + 1 := by
  rw [BitVec.toNat_add, BitVec.toNat_ofNat]
  omega

/-- Settles O43: inside memory LD [I], Vx is one copy of the first registers. -/
theorem registersAreStoredFromI : Obligations.RegistersAreStoredFromI := by
  intro x s hwf
  refine ⟨packF_toNat x 0x55, fun hin => ?_, exec_rangeCheck_fails rfl (Nat.le_add_left 1 _)⟩
  have hlen := firstRegs_length_nibble s x
  refine ⟨_, (exec_storeRegs x s).trans (if_pos (by omega)), fun r hr => ?_,
    fun _ ha => read_copyBytes_outside s.mem _ _ (by omega), indexPastBlock_toNat hin, pcOn_of_eq (by omega) rfl, rfl,
    copyBytes_font ..⟩
  have hr' : r.toNat < (s.firstRegs (x.toNat + 1)).length := by omega
  exact (read_copyBytes_inside hwf _ _ (by omega) r.toNat hr').trans (firstRegs_getElem s r hr')

/-- After a fill of the first `k` registers, a register reads as its byte, if it is one of them. -/
theorem readV_fillRegs {s t : State} {k : Nat} {f : Nat → Byte}
    (ht : t.v = fillRegs s.v 0 ((List.range k).map f)) (r : Nibble) :
    t.readV r = if r.toNat < k then f r.toNat else s.readV r := by
  have hr := r.isLt
  simp only [State.readV, ht, fillRegs_getElem _ _ _ _ hr]
  simp

/-- Settles O44: inside memory LD Vx, [I] is one fill of the first registers. -/
theorem registersAreLoadedFromI : Obligations.RegistersAreLoadedFromI := by
  intro x s
  refine ⟨packF_toNat x 0x65, fun hin => ?_, exec_rangeCheck_fails rfl (Nat.le_add_left 1 _)⟩
  exact ⟨_, (exec_loadRegs x s).trans (if_pos (by omega)),
    fun r hr => (readV_fillRegs rfl r).trans (if_pos (by omega)),
    fun r hr => (readV_fillRegs rfl r).trans (if_neg (by omega)), indexPastBlock_toNat hin, pcOn_of_eq (by omega) rfl,
    rfl, fun _ => rfl⟩

end Sys2Proof.Machine

/-! PROOFS. The keypad and the timers (spec/44_keys_timers.md): the key skips, the key wait and its end, and the loads that
read or set a timer. -/

namespace Sys2Proof.Machine

/-- The words of format XF in group E (R73), with the selector beside the group. -/
theorem packE_toNat (x : Nibble) (nn : Byte) : (packXB 0xE x nn).toNat = 0xE000 + nn.toNat + x.toNat * 256 := by
  rw [packXB_toNat, show (0xE : Nibble).toNat = 14 from rfl]
  omega

/-! ### Key skips (R200, R201) -/

/-- Settles O46: below 16 each key skip is `skipIf` of the key's level, and from 16 on it is fault entry. -/
theorem keySkipsTestTheKey : Obligations.KeySkipsTestTheKey := by
  intro x s
  refine ⟨packE_toNat x 0x9E, packE_toNat x 0xA1, fun hkey => ⟨?_, ?_⟩, fun hnone => ⟨?_, ?_⟩⟩
  · exact ⟨_, (exec_skp x s).trans (if_neg (by omega)), skipResult_skipIf s Iff.rfl⟩
  · exact ⟨_, (exec_sknp x s).trans (if_neg (by omega)), skipResult_skipIf s (Bool.not_eq_true' _).to_iff⟩
  · exact (exec_skp x s).trans (if_pos hnone)
  · exact (exec_sknp x s).trans (if_pos hnone)

/-! ### LD Vx, DT (R202) -/

/-- Settles O47: LD Vx, DT is one register write of the delay timer. -/
theorem delayTimerIsReadIntoVx : Obligations.DelayTimerIsReadIntoVx := fun x s =>
  ⟨packF_toNat x 0x07, _, rfl, regResult_setV s x rfl⟩

/-! ### LD Vx, K (R203, R204) -/

/-- The highest pressed key is the one the scan finds. -/
theorem highestKey_eq_some {keys : BitVec 16} {k : Nat} (hk : k < 16) (hpressed : keys.getLsbD k = true)
    (hmax : ∀ j, j < 16 → keys.getLsbD j = true → j ≤ k) : highestKey keys = some k := by
  cases h : highestKey keys with
  | none => simp [highestKey_none.1 h] at hpressed
  | some j =>
    obtain ⟨hj, hjPressed, hjMax⟩ := highestKey_some h
    exact congrArg some (Nat.le_antisymm (hmax j hj hjPressed) (hjMax k hk hpressed))

theorem exec_ldVxK_pressed (x : Nibble) {s : State} {k : Nat} (h : highestKey s.keys = some k) :
    exec (.ldVxK x) s = .next (s.setV x (BitVec.ofNat 8 k)).advance := by rw [exec_ldVxK, h]

theorem exec_ldVxK_released (x : Nibble) {s : State} (h : s.keys = 0) :
    exec (.ldVxK x) s = .next (s.emit .waiting) := by rw [exec_ldVxK, highestKey_none.2 h]

/-- A key number fits a byte. -/
theorem keyByte_toNat {k : Nat} (hk : k < 16) : (BitVec.ofNat 8 k).toNat = k := Nat.mod_eq_of_lt (by omega)

/-- Settles O48: the two cases of the scan. -/
theorem keyWaitTakesTheHighestKeyOrBlocks : Obligations.KeyWaitTakesTheHighestKeyOrBlocks := by
  intro x s
  refine ⟨packF_toNat x 0x0A, fun k hk hpressed hmax => ?_, fun hreleased => ?_⟩
  · exact ⟨_, exec_ldVxK_pressed x (highestKey_eq_some hk hpressed hmax), regResult_setV s x (keyByte_toNat hk)⟩
  · have hkeys : s.keys = 0 := BitVec.eq_of_getLsbD_eq fun k hk => by simpa using hreleased k hk
    exact exec_ldVxK_released x hkeys

/-- A cycle that blocks on the key wait: only the ports of the Cycle change. -/
theorem cycle_blocked (r : Byte) {x : Nibble} {s : State} (hrun : s.faultCause = .none)
    (hf : s.fetch = some (encode (.ldVxK x))) (hkeys : s.keys = 0) :
    cycle r s = .next { s with rand := r, events := [.waiting] } := by
  have hx := exec_ldVxK_released x (s := { s with rand := r, events := [] }) hkeys
  rw [cycle_exec r s _ hrun _ hf _ (decodeWord_encode _) hx, if_pos (.inr (List.mem_singleton.2 rfl))]
  rfl

/-- Settles O49: the ports a blocked cycle changes are not read by the next one, which blocks again. -/
theorem blockedCycleChangesNothing : Obligations.BlockedCycleChangesNothing := fun r r' _ s hrun hf hkeys =>
  ⟨cycle_blocked r hrun hf hkeys, cycle_blocked r' (s := { s with rand := r, events := [.waiting] }) hrun hf hkeys⟩

/-! ### A cycle that completes (R235) -/

/-- A cycle whose instruction neither faults nor emits an event ends with the timer step. -/
theorem cycle_completes {r : Byte} {i : Instr} {s u : State} (hrun : s.faultCause = .none)
    (hf : s.fetch = some (encode i)) (hx : exec i { s with rand := r, events := [] } = .next u)
    (hcause : u.faultCause = .none) (hev : u.events = []) : cycle r s = .next u.timerStep := by
  rw [cycle_exec r s u hrun _ hf i (decodeWord_encode i) hx, if_neg (by simp [hcause, hev]), timerStep_eq_ticked]

/-- The timer step after an instruction without an event emits BEEP at most, exactly when ST was 1 (R237). -/
theorem mem_events_timerStep {u : State} (hev : u.events = []) {e : Event} :
    e ∈ u.timerStep.events ↔ u.st.toNat = 1 ∧ e = .beep := by
  have hst : u.st = 1 ↔ u.st.toNat = 1 := BitVec.toNat_eq
  by_cases h : u.st = 1 <;> simp [hev, h, ← hst]

/-- Settles O50: some key is the highest one pressed, so the cycle completes with its number in V[x]. -/
theorem pressingAKeyEndsTheWait : Obligations.PressingAKeyEndsTheWait := by
  intro r x k s hrun hf hk
  obtain ⟨j, hj⟩ := Option.ne_none_iff_exists'.1 (mt highestKey_none.1 hk)
  obtain ⟨hlt, hpressed, -⟩ := highestKey_some hj
  have hx := exec_ldVxK_pressed x (s := { s.setKeys k with rand := r, events := [] }) hj
  refine ⟨_, cycle_completes (s := s.setKeys k) hrun hf hx hrun rfl, pcOn_of_eq (by omega) rfl, fun hwait => ?_, ?_,
    countDown_toNat s.dt⟩
  · obtain ⟨-, hbeep⟩ := (mem_events_timerStep rfl).1 hwait
    cases hbeep
  · rw [readV_timerStep, readV_advance, readV_setV_same, keyByte_toNat hlt]
    exact hpressed

/-! ### LD DT and LD ST (R205, R206) -/

/-- Settles O51: each load is one write of its timer, which the timer step then counts. -/
theorem timersAreLoadedFromVx : Obligations.TimersAreLoadedFromVx := by
  intro x s
  refine ⟨packF_toNat x 0x15, packF_toNat x 0x18, ⟨_, rfl, rfl, pcOn_of_eq (by omega) rfl, rfl, fun _ => rfl⟩,
    ⟨_, rfl, rfl, pcOn_of_eq (by omega) rfl, rfl, fun _ => rfl⟩, fun r hrun hf => ?_, fun r hrun hf => ?_⟩
  · exact ⟨_, cycle_completes hrun hf rfl hrun rfl, countDown_toNat (s.readV x)⟩
  · refine ⟨_, cycle_completes hrun hf rfl hrun rfl, countDown_toNat (s.readV x), ?_⟩
    rw [mem_events_timerStep rfl]
    exact and_iff_left rfl

end Sys2Proof.Machine

/-! PROOFS. Faults, the halted core, the timer step, events and host ports (spec/60_exceptions.md). -/

namespace Sys2Proof.Machine

/-! ### Next states, and the halted core (R220, R231) -/

/-- Settles O10: a step is a Cycle, and a Cycle answers as its instruction does. -/
theorem everyStepAnswersANextState : Obligations.EveryStepAnswersANextState := by
  refine ⟨exec_answers, fun s => cycle_answers _ { s with inputs := s.inputs + 1 }, fun op s => ?_⟩
  obtain ⟨t, ht, -⟩ := hostOp_answers op s
  exact ⟨t, ht⟩

/-- The one state a Cycle of a halted core leaves. -/
theorem eq_of_cycle_halted {r : Byte} {s t : State} (hhalt : s.faultCause ≠ .none) (ht : cycle r s = .next t) :
    t = { s with rand := r, events := [.halted] } :=
  (Host.Outcome.next.inj ((cycle_halted r s hhalt).symm.trans ht)).symm

/-- The four fault registers of `t` are those of `s` (spec/10_state.md R36). -/
def SameFaultRegs (s t : State) : Prop :=
  t.faultCause = s.faultCause ∧ t.faultPc = s.faultPc ∧ t.faultOpcode = s.faultOpcode ∧ t.faultInfo = s.faultInfo

/-- Load writes memory and the events only. -/
theorem load_sameFaultRegs (s : State) (buf : List Byte) : SameFaultRegs s (s.load buf) := by
  by_cases hlen : buf.length < 3584
  · rw [load_accepted s hlen]
    exact ⟨rfl, rfl, rfl, rfl⟩
  · rw [load_rejected s (by omega)]
    exact ⟨rfl, rfl, rfl, rfl⟩

/-- Every host operation on a halted core but Initialize leaves the fault recorded. -/
theorem hostOp_halted_sameFaultRegs {op : HostOp} {s t : State} (hhalt : s.faultCause ≠ .none) (hop : op ≠ .init)
    (ht : hostOp op s = .next t) : SameFaultRegs s t := by
  cases op with
  | init => exact absurd rfl hop
  | load buf => cases ht; exact load_sameFaultRegs s buf
  | cycle r =>
    obtain rfl := eq_of_cycle_halted hhalt ht
    exact ⟨rfl, rfl, rfl, rfl⟩
  | setKeys k => cases ht; exact ⟨rfl, rfl, rfl, rfl⟩
  | readFrame => cases ht; exact ⟨rfl, rfl, rfl, rfl⟩
  | ackRedraw => cases ht; exact ⟨rfl, rfl, rfl, rfl⟩
  | readStatus => cases ht; exact ⟨rfl, rfl, rfl, rfl⟩

/-- Settles O11: Initialize restores the reset values, and a Load's bytes read back as on a running core. -/
theorem haltedCoreOnlyEmitsHaltedUntilInitialize : Obligations.HaltedCoreOnlyEmitsHaltedUntilInitialize := by
  intro s hhalt
  refine ⟨fun r => cycle_halted r s hhalt, ⟨s.reinit, rfl, rfl, rfl, rfl, rfl⟩,
    fun op t => hostOp_halted_sameFaultRegs hhalt, fun k => rfl, rfl, fun buf t j hlen hwf ht hj => ?_⟩
  obtain ⟨hload, -⟩ := loadCopiesTheProgramOrRejectsIt s buf hwf
  obtain ⟨u, hu, hread, -⟩ := hload hlen
  obtain rfl : u = t := Host.Outcome.next.inj (hu.symm.trans ht)
  exact hread j hj

/-! ### Unrecognized opcodes (R227) -/

/-- Settles O12: the whole next state is the timer step after the event. -/
theorem unrecognizedOpcodeIsALoggedNoOp : Obligations.UnrecognizedOpcodeIsALoggedNoOp := by
  intro r s w e hrun hfetch hdec
  exact ⟨_, cycle_illegal r s hrun w hfetch e hdec, rfl, hrun, List.mem_append_left _ (List.mem_singleton.2 rfl), rfl⟩

/-! ### Fault entry (R221 to R230) -/

/-- A running cycle fails to fetch, or enters the fault of its instruction, or, from a clear state, records no fault. -/
theorem cycle_fault_cases {r : Byte} {s t : State} (hrun : s.faultCause = .none) (ht : cycle r s = .next t) :
    (s.fetch = none ∧ 0xFFE < s.pc.toNat ∧ t = faulted { s with rand := r, events := [] } .fetchOob 0 s.pc) ∨
    (∃ w i c n, s.pc.toNat ≤ 0xFFE ∧ s.fetch = some w ∧ decodeWord w = .ok i ∧ s.faultFor i = some (c, n) ∧
      t = faulted { s with rand := r, events := [] } c (encode i) (BitVec.ofNat 16 n)) ∨
    (s.pc.toNat ≤ 0xFFE ∧ s.clear = true ∧ t.faultCause = .none) := by
  obtain hfetch | ⟨w, e, hpc, hw, hd, rfl⟩ | hfault | ⟨w, i, u, hpc, hw, hd, hf, e, hu⟩ := cycle_cases hrun ht
  · exact .inl hfetch
  · exact .inr (.inr ⟨hpc, by simp [State.clear, hw, hd], hrun⟩)
  · exact .inr (.inl hfault)
  · have hcause : u.faultCause = .none := e.faultCause.trans hrun
    refine .inr (.inr ⟨hpc, by simp [State.clear, State.clearFor, hw, hd, hf], ?_⟩)
    obtain ⟨-, rfl⟩ | ⟨rfl, -⟩ := hu <;> exact hcause

/-- Settles O13: the two ways a running cycle records a fault are both fault entry, and the faulting instruction is the one
its word encodes. -/
theorem faultingCycleOnlyEntersTheFault : Obligations.FaultingCycleOnlyEntersTheFault := by
  intro r s t hrun ht hfault
  obtain ⟨hnone, -, rfl⟩ | ⟨w, i, c, n, hpc, hw, hd, -, rfl⟩ | ⟨-, -, hcause⟩ := cycle_fault_cases hrun ht
  · exact ⟨0, s.pc, rfl, rfl, rfl, rfl, fun _ => rfl, fun w hw => by simp [hnone] at hw⟩
  · refine ⟨encode i, BitVec.ofNat 16 n, rfl, rfl, rfl, rfl, fun hout => by omega, fun w' hw' => ?_⟩
    obtain rfl : w = w' := Option.some.inj (hw.symm.trans hw')
    exact decodeWord_eq_ok.1 hd
  · exact absurd hcause hfault

/-- No instruction raises the fault of the fetch. -/
theorem faultFor_ne_fetchOob {s : State} {i : Instr} {c : FaultCause} {n : Nat} (h : s.faultFor i = some (c, n)) :
    c ≠ .fetchOob := by
  obtain ⟨a, -, -, rfl, -⟩ | ⟨-, -, rfl, -⟩ | ⟨x, -, -, rfl, -⟩ | ⟨-, -, rfl, -⟩ := faultFor_cases h <;> decide

/-- The `fault_info` of each row of the table fits its 16 bits. -/
theorem faultFor_info_lt {s : State} {i : Instr} {c : FaultCause} {n : Nat} (h : s.faultFor i = some (c, n)) :
    n < 65536 := by
  obtain ⟨a, -, -, -, rfl⟩ | ⟨-, -, -, rfl⟩ | ⟨x, -, -, -, rfl⟩ | ⟨-, -, -, rfl⟩ := faultFor_cases h
  · omega
  · omega
  · have := (s.readV x).isLt
    omega
  · have := s.i.isLt
    omega

/-- A running cycle records FETCH_OOB exactly when the pc is above 0xFFE, with the pc as info and opcode 0 (R222). -/
theorem cycle_fetchOob_iff {r : Byte} {s t : State} (hrun : s.faultCause = .none) (ht : cycle r s = .next t) :
    (t.faultCause = .fetchOob ↔ s.pc.toNat > 0xFFE) ∧
    (t.faultCause = .fetchOob → t.faultInfo = s.pc ∧ t.faultOpcode = 0) := by
  obtain ⟨-, hpc, rfl⟩ | ⟨w, i, c, n, hpc, -, -, hf, rfl⟩ | ⟨hpc, -, hcause⟩ := cycle_fault_cases hrun ht
  · exact ⟨iff_of_true rfl hpc, fun _ => ⟨rfl, rfl⟩⟩
  · have hne : c ≠ .fetchOob := faultFor_ne_fetchOob hf
    exact ⟨iff_of_false hne (by omega), fun h => absurd h hne⟩
  · have hne : t.faultCause ≠ .fetchOob := by simp [hcause]
    exact ⟨iff_of_false hne (by omega), fun h => absurd h hne⟩

/-- Settles O14: the codes by the table, the fetch by its range test, and each instruction by its fault condition. -/
theorem instructionFaultsAsTheCauseTableSays : Obligations.InstructionFaultsAsTheCauseTableSays := by
  refine ⟨rfl, fun r s t => cycle_fetchOob_iff, fun i s => ?_⟩
  cases hf : s.faultFor i with
  | some cn => exact ⟨_, exec_fault i s cn.1 cn.2 hf, rfl, faultFor_info_lt hf⟩
  | none =>
    obtain ⟨t, e⟩ := exec_effect i s hf
    exact ⟨t, e.runs, e.faultCause, e.faultPc, e.faultOpcode, e.faultInfo⟩

/-- A cycle from a clear state records no fault: the fetch succeeds and the instruction's fault condition does not hold. -/
theorem cycle_clear {r : Byte} {s t : State} (hrun : s.faultCause = .none) (hclear : s.clear = true)
    (ht : cycle r s = .next t) : t.faultCause = .none := by
  obtain ⟨hnone, -, -⟩ | ⟨w, i, c, n, -, hw, hd, hf, -⟩ | ⟨-, -, hcause⟩ := cycle_fault_cases hrun ht
  · simp [State.clear, hnone] at hclear
  · simp [State.clear, State.clearFor, hw, hd, hf] at hclear
  · exact hcause

/-- Settles O15: a step is a Cycle, and taking the next input leaves a clear state clear. -/
theorem clearStateStepsWithoutFault : Obligations.ClearStateStepsWithoutFault := by
  intro s hrun hclear
  obtain ⟨t, ht⟩ := cycle_answers (Config.randByte s.inputs) { s with inputs := s.inputs + 1 }
  exact ⟨t, ht, cycle_clear (s := { s with inputs := s.inputs + 1 }) hrun hclear ht⟩

/-! ### The timer step and the order of events (R235 to R237, R245) -/

/-- Both timers count down by one, and 0 stays 0 (R236). -/
theorem ticked_counts (u : State) : (ticked u).dt.toNat = u.dt.toNat - 1 ∧ (ticked u).st.toNat = u.st.toNat - 1 := by
  rw [← timerStep_eq_ticked]
  exact ⟨countDown_toNat u.dt, countDown_toNat u.st⟩

/-- The timer step adds BEEP to the events when ST is 1, and nothing else (R237). -/
theorem mem_events_ticked {u : State} {e : Event} :
    e ∈ (ticked u).events ↔ e ∈ u.events ∨ (u.st.toNat = 1 ∧ e = .beep) := by
  by_cases h : u.st.toNat = 1 <;> simp [ticked, h]

/-- The timer step appends no event or the one BEEP. -/
theorem events_ticked (u : State) :
    ∃ last, (ticked u).events = u.events ++ last ∧ (last = [] ∨ last = [.beep]) := by
  refine ⟨_, rfl, ?_⟩
  by_cases h : u.st.toNat = 1 <;> simp [h]

/-- DT as a cycle on the word leaves it, before the timer step (R205). -/
def State.dtAfter (s : State) (w : Word) : Byte :=
  match decodeWord w with
  | .ok (.ldDtVx x) => s.readV x
  | _ => s.dt

/-- ST as a cycle on the word leaves it, before the timer step (R206). -/
def State.stAfter (s : State) (w : Word) : Byte :=
  match decodeWord w with
  | .ok (.ldStVx x) => s.readV x
  | _ => s.st

/-- An unrecognized word loads no timer. -/
theorem timersAfter_unrecognized (s : State) {w : Word} {e : Reject} (hd : decodeWord w = .error e) :
    s.dtAfter w = s.dt ∧ s.stAfter w = s.st := by
  simp [State.dtAfter, State.stAfter, hd]

theorem Effect.dt_eq_dtAfter {w : Word} {i : Instr} {s t : State} (e : Effect i s t) (hd : decodeWord w = .ok i) :
    t.dt = s.dtAfter w := by
  rw [State.dtAfter, hd]
  cases i
  case ldDtVx x => cases e.runs; rfl
  all_goals exact e.dt nofun

theorem Effect.st_eq_stAfter {w : Word} {i : Instr} {s t : State} (e : Effect i s t) (hd : decodeWord w = .ok i) :
    t.st = s.stAfter w := by
  rw [State.stAfter, hd]
  cases i
  case ldStVx x => cases e.runs; rfl
  all_goals exact e.st nofun

/-- What R235 says of a cycle from `s` to `t`: faulting or blocked it counts nothing; else the timers are one below the
values `dt` and `st`, and BEEP is emitted exactly when ST was 1. -/
def TimersCounted (s : State) (dt st : Byte) (t : State) : Prop :=
  if t.faultCause ≠ .none ∨ .waiting ∈ t.events then t.dt = s.dt ∧ t.st = s.st ∧ .beep ∉ t.events
  else t.dt.toNat = dt.toNat - 1 ∧ t.st.toNat = st.toNat - 1 ∧ (.beep ∈ t.events ↔ st.toNat = 1)

/-- The timer step counts the values it finds, where no fault, WAITING or BEEP stands before it. -/
theorem timersCounted_ticked {s u : State} (hcause : u.faultCause = .none) (hwait : .waiting ∉ u.events)
    (hbeep : .beep ∉ u.events) : TimersCounted s u.dt u.st (ticked u) := by
  have hdone : ¬ ((ticked u).faultCause ≠ .none ∨ .waiting ∈ (ticked u).events) := by
    rw [mem_events_ticked]
    simp [ticked, hcause, hwait]
  rw [TimersCounted, if_neg hdone, mem_events_ticked]
  obtain ⟨hdt, hst⟩ := ticked_counts u
  exact ⟨hdt, hst, by simp [hbeep]⟩

/-- A cycle of a running core that fetches a word counts the timers on the values the word leaves. -/
theorem cycle_timersCounted {r : Byte} {s t : State} {w : Word} (hrun : s.faultCause = .none)
    (hw : s.fetch = some w) (ht : cycle r s = .next t) : TimersCounted s (s.dtAfter w) (s.stAfter w) t := by
  obtain ⟨hnone, -, -⟩ | ⟨w', e, -, hw', hd, rfl⟩ | ⟨w', i, c, n, -, -, -, hf, rfl⟩ | ⟨w', i, u, -, hw', hd, -, e, hu⟩ :=
    cycle_cases hrun ht
  · simp [hnone] at hw
  · obtain rfl : w = w' := Option.some.inj (hw.symm.trans hw')
    obtain ⟨hdt, hst⟩ := timersAfter_unrecognized s hd
    rw [hdt, hst]
    exact timersCounted_ticked (u := { s with rand := r, events := _ }) hrun (by simp) (by simp)
  · rw [TimersCounted, if_pos (.inl (faultFor_cause hf))]
    exact ⟨rfl, rfl, by simp [faulted]⟩
  · obtain rfl : w = w' := Option.some.inj (hw.symm.trans hw')
    obtain ⟨hev, rfl⟩ | ⟨rfl, rfl, -⟩ := hu
    · have hdt : u.dt = s.dtAfter w := e.dt_eq_dtAfter hd
      have hst : u.st = s.stAfter w := e.st_eq_stAfter hd
      rw [← hdt, ← hst]
      exact timersCounted_ticked (e.faultCause.trans hrun) (by simp [hev]) (by simp [hev])
    · rw [TimersCounted, if_pos (.inr (List.mem_singleton.2 rfl))]
      exact ⟨rfl, rfl, by simp⟩

/-- Settles O16: a halted core and a failed fetch by the one state each leaves, every other cycle by the word it runs. -/
theorem timersCountOncePerCompletedInstruction : Obligations.TimersCountOncePerCompletedInstruction := by
  refine ⟨fun r s t hno ht => ?_, fun r s t w hrun hw ht => cycle_timersCounted hrun hw ht⟩
  by_cases hrun : s.faultCause = .none
  · have hnone : s.fetch = none := hno.resolve_left (not_not_intro hrun)
    obtain ⟨-, -, rfl⟩ | ⟨w, i, c, n, -, hw, -⟩ | ⟨hpc, -, -⟩ := cycle_fault_cases hrun ht
    · exact ⟨rfl, rfl, by simp [faulted]⟩
    · simp [hnone] at hw
    · simp [fetch_inside s hpc] at hnone
  · obtain rfl := eq_of_cycle_halted hrun ht
    exact ⟨rfl, rfl, by simp⟩

/-- Settles O17: the timer step appends at most BEEP, to nothing or to ILLEGAL_OPCODE; the other cycles end with their one
event. -/
theorem eventsComeInOrder : Obligations.EventsComeInOrder := by
  refine ⟨fun r s t ht => ?_, fun s buf => ?_⟩
  · by_cases hrun : s.faultCause = .none
    · obtain ⟨-, -, rfl⟩ | ⟨w, e, -, hw, -, rfl⟩ | ⟨w, i, c, n, -, -, -, -, rfl⟩ | ⟨w, i, u, -, -, -, -, -, hu⟩ :=
        cycle_cases hrun ht
      · exact ⟨_, [], rfl, .inr (.inr (.inr (.inl rfl))), .inl rfl⟩
      · obtain ⟨last, hlast, hbeep⟩ := events_ticked { s with rand := r, events := [.illegalOpcode s.pc w] }
        exact ⟨_, last, hlast, .inr (.inl ⟨w, hw, rfl⟩), hbeep.imp_right fun h => ⟨h, .inr ⟨w, rfl⟩⟩⟩
      · exact ⟨_, [], rfl, .inr (.inr (.inr (.inl rfl))), .inl rfl⟩
      · obtain ⟨hev, rfl⟩ | ⟨rfl, rfl, -⟩ := hu
        · obtain ⟨last, hlast, hbeep⟩ := events_ticked u
          exact ⟨u.events, last, hlast, .inl hev, hbeep.imp_right fun h => ⟨h, .inl hev⟩⟩
        · exact ⟨[.waiting], [], rfl, .inr (.inr (.inl rfl)), .inl rfl⟩
    · obtain rfl := eq_of_cycle_halted hrun ht
      exact ⟨[.halted], [], rfl, .inr (.inr (.inr (.inr rfl))), .inl rfl⟩
  · split
    · next hlen => rw [load_accepted s hlen]
    · next hlen => rw [load_rejected s (by omega)]

/-! ### The ports of a cycle (R241 to R244) -/

/-- A set redraw flag stays set through an instruction's effect: an instruction that draws sets it, no other writes it. -/
theorem Effect.redraw_stays {i : Instr} {s t : State} (e : Effect i s t) (h : s.redraw = true) : t.redraw = true := by
  by_cases hd : i.draws = true
  · exact e.redraw hd
  · exact (e.fb (by simpa using hd)).2.trans h

/-- What a Cycle does to its ports: it takes its RAND, keeps the keypad latch, and never clears the redraw flag. -/
theorem cycle_ports {r : Byte} {s t : State} (ht : cycle r s = .next t) :
    t.rand = r ∧ t.keys = s.keys ∧ (s.redraw = true → t.redraw = true) := by
  by_cases hrun : s.faultCause = .none
  · obtain ⟨-, -, rfl⟩ | ⟨w, e, -, -, -, rfl⟩ | ⟨w, i, c, n, -, -, -, -, rfl⟩ | ⟨w, i, u, -, -, -, -, e, hu⟩ :=
      cycle_cases hrun ht
    · exact ⟨rfl, rfl, id⟩
    · exact ⟨rfl, rfl, id⟩
    · exact ⟨rfl, rfl, id⟩
    · obtain ⟨-, rfl⟩ | ⟨rfl, -⟩ := hu <;> exact ⟨e.rand, e.keys, e.redraw_stays⟩
  · obtain rfl := eq_of_cycle_halted hrun ht
    exact ⟨rfl, rfl, id⟩

/-- An answer with another RAND in its state. -/
def Answer.withRand (r : Byte) : Answer → Answer
  | .next t => .next { t with rand := r }
  | a => a

/-- An instruction other than RND commutes with a change of RAND: no condition its meaning tests reads it. -/
theorem exec_withRand {i : Instr} (hi : i.readsRand = false) (s : State) (r : Byte) :
    exec i { s with rand := r } = Answer.withRand r (exec i s) := by
  cases i
  case rnd x nn => simp [Instr.readsRand] at hi
  case ret => rw [exec_ret, exec_ret, apply_dite (Answer.withRand r)]; rfl
  case callAddr a => rw [exec_callAddr, exec_callAddr, apply_dite (Answer.withRand r)]; rfl
  case skp x => rw [exec_skp, exec_skp, apply_ite (Answer.withRand r)]; rfl
  case sknp x => rw [exec_sknp, exec_sknp, apply_ite (Answer.withRand r)]; rfl
  case drw x y n => rw [exec_drw, exec_drw, apply_ite (Answer.withRand r)]; rfl
  case ldB x => rw [exec_ldB, exec_ldB, apply_ite (Answer.withRand r)]; rfl
  case storeRegs x => rw [exec_storeRegs, exec_storeRegs, apply_ite (Answer.withRand r)]; rfl
  case loadRegs x => rw [exec_loadRegs, exec_loadRegs, apply_ite (Answer.withRand r)]; rfl
  case ldVxK x =>
    rw [exec_ldVxK, exec_ldVxK]
    cases highestKey s.keys <;> rfl
  all_goals rfl

/-- Settles O18: a Cycle holds its RAND, and any instruction but RND commutes with a change of it. -/
theorem onlyRndReadsTheRandomInput : Obligations.OnlyRndReadsTheRandomInput := by
  refine ⟨fun r s t ht => (cycle_ports ht).1, fun i s t r hi h => ?_⟩
  rw [exec_withRand hi, h]
  rfl

/-- Settles O58: the latch and the flag through a Cycle by `cycle_ports`; each operation is its one field's update. -/
theorem hostPortsDoOnlyWhatTheySay : Obligations.HostPortsDoOnlyWhatTheySay := by
  intro s k
  refine ⟨⟨s.setKeys k, rfl, fun j _ => rfl, rfl⟩, rfl, rfl, ⟨s.ackRedraw, rfl, rfl, rfl⟩, rfl, rfl,
    fun r t ht => (cycle_ports ht).2, fun i hdraws hf => ?_⟩
  obtain ⟨t, e⟩ := exec_effect i s.ackRedraw hf
  exact ⟨t, e.runs, e.redraw hdraws⟩

end Sys2Proof.Machine

/-! PROOFS. Reset (spec/70_reset_and_hazards.md): the state Initialize leaves, and that it is a complete reset. -/

namespace Sys2Proof.Machine

/-- Settles O19: the default FONT of the reset state is one of those `resetWith_inv` speaks of. -/
theorem resetStateMeetsTheInvariant : Obligations.ResetStateMeetsTheInvariant :=
  ⟨resetWith_inv, resetWith_inv Config.defaultFont⟩

/-! ### The reset values (R261) -/

/-- Every register is 0 after Initialize. -/
theorem readV_resetWith (font : Font) (r : Nibble) : (State.resetWith font).readV r = 0 :=
  Vector.getElem_replicate r.isLt

/-- No byte of memory is listed after Initialize, so each address reads as FONT and zeros put it there. -/
theorem read_resetWith (font : Font) (a : Nat) :
    (State.resetWith font).mem.read a = (State.resetWith font).mem.unlisted a := rfl

/-- Addresses 0x000 to 0x04F hold the FONT after Initialize. -/
theorem read_resetWith_font (font : Font) (a : Fin 80) : (State.resetWith font).mem.read a.val = font[a.val] := by
  rw [read_resetWith, Memory.unlisted, dif_pos a.isLt]
  rfl

/-- Addresses from 0x050 on hold 0 after Initialize. -/
theorem read_resetWith_above_font (font : Font) {a : Nat} (ha : 0x50 ≤ a) : (State.resetWith font).mem.read a = 0 := by
  rw [read_resetWith, Memory.unlisted, dif_neg (by omega)]

/-- Settles O54: the registers, the stack, memory and the framebuffer by their lemmas; every other item is one field of the
reset state. -/
theorem resetStateIsAsTheRuleSays : Obligations.ResetStateIsAsTheRuleSays := by
  intro font
  exact ⟨readV_resetWith font, rfl, rfl, fun k => Vector.getElem_replicate k.isLt, rfl, rfl, rfl,
    read_resetWith_font font, fun _ ha _ => read_resetWith_above_font font ha, fun p _ => pixel_blank p,
    rfl, rfl, rfl, rfl, rfl, rfl⟩

/-! ### A complete reset (R260, R262) -/

/-- A second Initialize right after the first changes nothing: the first keeps FONT and the count of inputs, all that the
second reads. -/
theorem reinit_reinit (s : State) : s.reinit.reinit = s.reinit := rfl

/-- Settles O55: Initialize answers `reinit`, and `reinit` is idempotent. -/
theorem initializeIsACompleteReset : Obligations.InitializeIsACompleteReset := by
  intro s
  exact ⟨s.reinit, rfl, rfl, rfl, congrArg Host.Outcome.next (reinit_reinit s)⟩

end Sys2Proof.Machine
